-- ==== Sys2Proof/Word.lean ====
section
/-!
DEFINITION. The word types of the MARIE core: the 16-bit word, its only datum (R7), and the 12-bit address field.
-/

namespace Sys2Proof

/-- "16-bit storage/addressing unit, the machine's only datum size" (R7, R15). Arithmetic on it is modulo 2^16 (R12, R168). -/
abbrev Word := BitVec 16

/-- The address field, bits 11:0 of a word (R7, R15): 0x000 to 0xFFF, so always an address memory has. -/
abbrev Addr := BitVec 12

end Sys2Proof
end

