-- ==== Sys2Proof/Config.lean ====
section
/-!
DEFINITION. What is fixed for one MARIE core: the size of memory (R7) and the spec's named parameters (R9, R187).
-/

namespace Sys2Proof

/-- The parameter `OPCODE0_MODE` (R9, 90_conflicts.md C1): which fetched words the halt check stops on. -/
inductive Opcode0Mode where
  /-- The spec's default: only the word 0x0000 halts, every other opcode-0 word is a JnS. -/
  | haltOnZeroWord
  /-- The literal reading of the source: every word with opcode 0 halts, and JnS never executes. -/
  | haltOnZeroOpcode
deriving DecidableEq, Repr

/-- The parameter `P_OUT_RENDER` (R187, 92 D18): how the host prints an emitted word. Open in the spec; no rule of the
core depends on it, so it is an argument of whoever renders. -/
inductive OutRender where
  | unsigned
  | signed
deriving DecidableEq, Repr

namespace Config

/-- MEM_WORDS (R7): word addresses run from 0x000 to 0xFFF. -/
def memWords : Nat := 4096

/-- OPCODE_MASK, bits 15:12 (R7). -/
def opcodeMask : Word := 0xF000

/-- ADDRESS_MASK, bits 11:0 (R7). -/
def addressMask : Word := 0x0FFF

/-- CONDITION_MASK, bits 11:10 (R7). -/
def conditionMask : Word := 0x0C00

/-- The default of `OPCODE0_MODE` (R9, 92 D1). -/
def opcode0Default : Opcode0Mode := .haltOnZeroWord

end Config

end Sys2Proof
end

