-- ==== Sys2Proof/Syntax.lean ====
section
/-!
DEFINITION. The instructions: one constructor per row of spec/opcode_table.json. Every word has an opcode and twelve
further bits (R70 to R73); decode copies those twelve bits into MAR for every word, "even when unused by the opcode"
(R103), so every constructor carries all twelve, the ignored ones too.
-/

namespace Sys2Proof

/-- The three valid Skipcond conditions, `IR[11:10]` = 00, 01, 10 (R76). Condition 11 is a table row of its own. -/
inductive SkipCond where
  /-- 00: skip when s16(AC) < 0. -/
  | lessThan
  /-- 01: skip when AC = 0. -/
  | equal
  /-- 10: skip when s16(AC) > 0. -/
  | greaterThan
deriving DecidableEq, Repr

/-- An instruction, as spec/opcode_table.json lists them (R75). `x` is the address field X, `n` ignored bits. -/
inductive Instr where
  /-- `halt_check__zero_word` (R105): a word the halt check stops on. Its address field is 0 under the default
  `OPCODE0_MODE` and any value under `HALT_ON_ZERO_OPCODE` (R78). -/
  | zeroHalt (x : Addr)
  /-- `JnS`, opcode 0x0 (R120). -/
  | jnS (x : Addr)
  /-- `Load`, opcode 0x1 (R140). -/
  | load (x : Addr)
  /-- `Store`, opcode 0x2 (R142). -/
  | store (x : Addr)
  /-- `Add`, opcode 0x3 (R160). -/
  | add (x : Addr)
  /-- `Subt`, opcode 0x4 (R162). -/
  | subt (x : Addr)
  /-- `Input`, opcode 0x5 (R182). -/
  | input (n : Addr)
  /-- `Output`, opcode 0x6 (R186). -/
  | output (n : Addr)
  /-- `Halt`, opcode 0x7 (R122). -/
  | halt (n : Addr)
  /-- `Skipcond`, opcode 0x8 with a valid condition (R124). -/
  | skipcond (c : SkipCond) (n : BitVec 10)
  /-- `Skipcond` with condition 11: faults when executed (R124, R77). -/
  | skipcondBad (n : BitVec 10)
  /-- `Jump`, opcode 0x9 (R126). -/
  | jump (x : Addr)
  /-- `Clear`, opcode 0xA (R164). -/
  | clear (n : Addr)
  /-- `AddI`, opcode 0xB (R166). -/
  | addI (x : Addr)
  /-- `JumpI`, opcode 0xC (R128). -/
  | jumpI (x : Addr)
  /-- `LoadI`, opcode 0xD (R144). -/
  | loadI (x : Addr)
  /-- `StoreI`, opcode 0xE (R146). -/
  | storeI (x : Addr)
  /-- Opcode 0xF, no instruction: faults when executed (R106, R77). -/
  | illegalOpcode (n : Addr)
deriving DecidableEq, Repr

end Sys2Proof
end

