-- ==== Sys2Proof/WellFormed.lean ====
section
/-!
DEFINITION. Which instructions a word can stand for, under each `OPCODE0_MODE`. The field widths are in the types; what
is left is the overlap of the halting words with JnS (R78).
-/

namespace Sys2Proof

/-- `i.wellFormed mode`: some word decodes to `i` under `mode`. Opcode-0 words are shared between the halt check and
JnS as R78 says; every other instruction is well-formed with every operand. -/
def Instr.wellFormed (mode : Opcode0Mode) : Instr → Bool
  | .zeroHalt x => x == 0 || mode == .haltOnZeroOpcode
  | .jnS x => x != 0 && mode == .haltOnZeroWord
  | .load _ => true
  | .store _ => true
  | .add _ => true
  | .subt _ => true
  | .input _ => true
  | .output _ => true
  | .halt _ => true
  | .skipcond _ _ => true
  | .skipcondBad _ => true
  | .jump _ => true
  | .clear _ => true
  | .addI _ => true
  | .jumpI _ => true
  | .loadI _ => true
  | .storeI _ => true
  | .illegalOpcode _ => true

end Sys2Proof
end

