-- ==== Sys2Proof/Decode.lean ====
section
/-!
DEFINITION. The decoder and the encoder (R70 to R79). Decode is total on words (R79): the halting words are tested
first (R78), then the opcode, and the two illegal classes of R77 have constructors of their own, so no word is refused.
-/

namespace Sys2Proof

/-- `IR[15:12]`, the opcode (R71). -/
def opcodeField (w : Word) : BitVec 4 := w.extractLsb' 12 4

/-- `IR[11:0]`, the address field X (R71). -/
def addrField (w : Word) : Addr := w.extractLsb' 0 12

/-- Bits 11:10 of the twelve address bits, the Skipcond condition (R72). -/
def condBits (x : Addr) : BitVec 2 := x.extractLsb' 10 2

/-- Bits 9:0, ignored by Skipcond (R72). -/
def skipIgnored (x : Addr) : BitVec 10 := x.extractLsb' 0 10

/-- `ZeroHalt(IR)` (R105): the words the halt check stops on. -/
def zeroHaltWord (mode : Opcode0Mode) (w : Word) : Bool :=
  match mode with
  | .haltOnZeroWord => w == 0
  | .haltOnZeroOpcode => opcodeField w == 0

/-- A Skipcond word's instruction, from its condition bits (R76). -/
def decodeSkipcond (x : Addr) : Instr :=
  match (condBits x).toNat with
  | 0 => .skipcond .lessThan (skipIgnored x)
  | 1 => .skipcond .equal (skipIgnored x)
  | 2 => .skipcond .greaterThan (skipIgnored x)
  | _ => .skipcondBad (skipIgnored x)

/-- The opcode map (R75). A 4-bit opcode is below 16, so the last arm is opcode 0xF alone (R106). -/
def decodeOpcode (op : BitVec 4) (x : Addr) : Instr :=
  match op.toNat with
  | 0 => .jnS x
  | 1 => .load x
  | 2 => .store x
  | 3 => .add x
  | 4 => .subt x
  | 5 => .input x
  | 6 => .output x
  | 7 => .halt x
  | 8 => decodeSkipcond x
  | 9 => .jump x
  | 10 => .clear x
  | 11 => .addI x
  | 12 => .jumpI x
  | 13 => .loadI x
  | 14 => .storeI x
  | _ => .illegalOpcode x

/-- The instruction a word stands for (R79): the halt check first, then the opcode (R78, R101). -/
def decodeWord (mode : Opcode0Mode) (w : Word) : Instr :=
  if zeroHaltWord mode w then .zeroHalt (addrField w) else decodeOpcode (opcodeField w) (addrField w)

/-- An opcode and twelve bits laid out as a word (R71). -/
def mkWord (op : BitVec 4) (x : Addr) : Word := op ++ x

/-- The two condition bits of a valid condition (R76). -/
def SkipCond.bits : SkipCond → BitVec 2
  | .lessThan => 0
  | .equal => 1
  | .greaterThan => 2

/-- The opcode of each instruction (R75). -/
def Instr.opcode : Instr → BitVec 4
  | .zeroHalt _ => 0x0
  | .jnS _ => 0x0
  | .load _ => 0x1
  | .store _ => 0x2
  | .add _ => 0x3
  | .subt _ => 0x4
  | .input _ => 0x5
  | .output _ => 0x6
  | .halt _ => 0x7
  | .skipcond _ _ => 0x8
  | .skipcondBad _ => 0x8
  | .jump _ => 0x9
  | .clear _ => 0xA
  | .addI _ => 0xB
  | .jumpI _ => 0xC
  | .loadI _ => 0xD
  | .storeI _ => 0xE
  | .illegalOpcode _ => 0xF

/-- The twelve low bits of each instruction's word: what decode puts into MAR (R71 to R74). -/
def Instr.lowBits : Instr → Addr
  | .zeroHalt x => x
  | .jnS x => x
  | .load x => x
  | .store x => x
  | .add x => x
  | .subt x => x
  | .input n => n
  | .output n => n
  | .halt n => n
  | .skipcond c n => c.bits ++ n
  | .skipcondBad n => (3 : BitVec 2) ++ n
  | .jump x => x
  | .clear n => n
  | .addI x => x
  | .jumpI x => x
  | .loadI x => x
  | .storeI x => x
  | .illegalOpcode n => n

/-- The word of an instruction (R71 to R76). -/
def encode (i : Instr) : Word := mkWord i.opcode i.lowBits

/-- The instruction the decoder reads from a table row's word, under the default mode. Every instruction is one 16-bit
word (R70), so anything longer is no instruction and is refused; bits above `nbits` are zero. -/
def decodeTableWord (nbits w : Nat) : Option Instr :=
  if nbits ≤ 16 ∧ w < 2 ^ nbits then some (decodeWord Config.opcode0Default (BitVec.ofNat 16 w)) else none

end Sys2Proof
end

