-- ==== Sys2Proof/Machine/State.lean ====
section
/-!
DEFINITION. The machine state (R20), its value at reset (R34), and the reasons a step can stop.
-/

namespace Sys2Proof.Machine

/-- Main memory M (R50): the words that are not 0x0000, as (word address, word) pairs, addresses strictly rising. An
unlisted address reads 0x0000, "zero-initialized at construction" (R57). The unit is the word: the core has no byte
addressing (R53). -/
abbrev Memory := List (Nat × Word)

/-- The fault causes (R201). -/
inductive FaultCode where
  /-- Code 1: opcode 0xF was executed (R106). -/
  | illegalOpcode
  /-- Code 2: Skipcond with condition 11 was executed (R124). -/
  | badSkipCondition
  /-- Code 3: a fetch with PC at or above 4096 (R102). -/
  | fetchAddress
  /-- Code 4: AddI, LoadI or StoreI through a pointer at or above 4096 (R144, R146, R166). -/
  | dataAddress
  /-- Code 5: the console reader met a malformed line (R184). -/
  | inputParse
deriving DecidableEq, Repr

/-- The fault record: `raise Fault(code, info)` (R200); INPUT_PARSE has no info (R201). -/
structure FaultRecord where
  code : FaultCode
  info : Option Word
deriving DecidableEq, Repr

/-- STATUS (R20): whether the loop still runs. -/
inductive Status where
  | running
  | halted
  | faulted (r : FaultRecord)
deriving DecidableEq, Repr

/-- A move of the console reader, the only agent beside the core (R180, R184). -/
inductive ReaderMove where
  /-- `deliver(v)`: a value arrives in HANDOFF (R180). -/
  | deliver (v : Word)
  /-- `reader_fault`: a malformed line ends the run (R184). -/
  | parseFault
deriving DecidableEq, Repr

/-- The machine state (R20), and two fields of the model's own for what the spec calls the step's parameter
(`opcode0Mode`, R9, R100) and the environment's draw (`reader`, R10, R180). -/
structure State where
  /-- Program counter: address of the next instruction to fetch (R23). -/
  pc : Word
  /-- Instruction register (R24). -/
  ir : Word
  /-- Accumulator, the sole general register (R22). -/
  ac : Word
  /-- Memory address register (R25). -/
  mar : Word
  /-- Memory buffer register (R26). -/
  mbr : Word
  /-- Latched input (R27). -/
  inreg : Word
  /-- Last output (R28). -/
  outreg : Word
  /-- Main memory (R50). -/
  mem : Memory
  /-- RUNNING, HALTED or FAULTED(code) (R20). -/
  status : Status
  /-- HANDOFF, the input cell (R31). -/
  handoff : Option Word
  /-- OUT, the output stream so far, oldest word first (R32). -/
  out : List Word
  /-- `OPCODE0_MODE` (R9). DESIGN CHOICE, safe: the parameter is carried in State, and no step writes it, so that a
  statement over every state covers both values (log entry 1). -/
  opcode0Mode : Opcode0Mode
  /-- The moves the reader is going to make: one entry for each coming step, the moves made just before it, in order;
  no moves once the list is used up. DESIGN CHOICE, safe: a statement over every state covers every schedule (log
  entry 2). -/
  reader : List (List ReaderMove)
deriving DecidableEq, Repr

/-- Why `step` answers no next state. Raised by `step` alone, and only where the run has already ended; safe: "Only a
state with STATUS = RUNNING has a step" (R108). A fault that the core raises is not one of these: it is a next state
whose STATUS is FAULTED (R200). -/
inductive Fault where
  /-- The run ended HALTED before this step. Raised by `step`; safe. -/
  | halted
  /-- The run ended FAULTED(code) before this step. Raised by `step`; safe. -/
  | faulted (code : FaultCode)
deriving DecidableEq, Repr

/-- Why an instruction has no meaning. -/
inductive Refusal where
  /-- Answered by `exec` for an instruction not modelled yet (none is left); safe. -/
  | notModelled (mnemonic : String)
deriving DecidableEq, Repr

/-- The machine right after reset (R34, R230): `load_image(0x000, [])`. PC is the image's start address; 0x000 is a
DESIGN CHOICE for the empty image (log entry 3). The zeros of IR, AC, MAR, MBR and OUTREG are the spec's decision
(92 D6, log entry 4). -/
def State.reset : State where
  pc := 0
  ir := 0
  ac := 0
  mar := 0
  mbr := 0
  inreg := 0
  outreg := 0
  mem := []
  status := .running
  handoff := none
  out := []
  opcode0Mode := Config.opcode0Default
  reader := []

end Sys2Proof.Machine
end

