-- ==== Sys2Proof/Machine/Ops.lean ====
section
/-!
DEFINITION. The named operations over memory and registers that every rule uses (R13): reading and writing memory,
raising a fault, halting, emitting, the reader's moves, the poll and the fetch.
-/

namespace Sys2Proof.Machine

/-! ### Memory -/

/-- The word at address `a`; an unlisted address reads 0x0000 (R57). -/
def Memory.get : Memory → Nat → Word
  | [], _ => 0
  | (k, v) :: m, a => if k = a then v else Memory.get m a

/-- `m` without an entry for `a`. -/
def Memory.erase : Memory → Nat → Memory
  | [], _ => []
  | (k, v) :: m, a => if k = a then Memory.erase m a else (k, v) :: Memory.erase m a

/-- The entry `(a, v)` placed before the first larger address. -/
def Memory.insert : Memory → Nat → Word → Memory
  | [], a, v => [(a, v)]
  | (k, w) :: m, a, v => if a < k then (a, v) :: (k, w) :: m else (k, w) :: Memory.insert m a v

/-- `m` with the word at `a` set to `v`. A zero is what an unlisted address reads as, so it is not listed. -/
def Memory.set (m : Memory) (a : Nat) (v : Word) : Memory :=
  if v = 0 then m.erase a else (m.erase a).insert a v

/-- Canonical from address `lo` on: addresses rise strictly from `lo`, stay below 4096, and no listed word is zero. -/
def Memory.wfFrom : Nat → Memory → Bool
  | _, [] => true
  | lo, (k, v) :: m => decide (lo ≤ k) && decide (k < Config.memWords) && decide (v ≠ 0) && Memory.wfFrom (k + 1) m

/-- The canonical form: equal memories are equal lists. -/
def Memory.wf (m : Memory) : Bool := Memory.wfFrom 0 m

/-- `MemRead(a, 1)` (R13): the word at `a`, or no answer where there is no memory (R56). -/
def State.memRead (s : State) (a : Word) : Option Word :=
  if a.toNat < Config.memWords then some (s.mem.get a.toNat) else none

/-- `MemWrite(a, 1, v)` (R13). Its callers pass addresses below 4096 only, which is why it has no failure. -/
def State.memWrite (s : State) (a : Word) (v : Word) : State :=
  { s with mem := s.mem.set a.toNat v }

/-! ### Registers and STATUS -/

/-- `AC <- v`. -/
def State.setAc (s : State) (v : Word) : State := { s with ac := v }

/-- `PC <- v` (R13): not masked and not checked here (R23, R119). -/
def State.setPc (s : State) (v : Word) : State := { s with pc := v }

/-- `raise Fault(code, info)` (R200): STATUS becomes FAULTED(code) and the run is over. The one operation that takes an
exception: the core has no handler, vector, saved state or return (R207, R208). -/
def State.raise (s : State) (code : FaultCode) (info : Option Word) : State :=
  { s with status := .faulted ⟨code, info⟩ }

/-- `halt` (R13, R204). -/
def State.halt (s : State) : State := { s with status := .halted }

/-- `OUTREG <- v; emit(v)` (R186): the word is appended to OUT. -/
def State.output (s : State) (v : Word) : State := { s with outreg := v, out := s.out ++ [v] }

/-! ### The console reader's moves -/

/-- `deliver(v)` (R180): overwrites whatever is still in HANDOFF. -/
def State.deliver (s : State) (v : Word) : State := { s with handoff := some v }

/-- `reader_fault` (R184). -/
def State.readerFault (s : State) : State := s.raise .inputParse none

/-- One move of the reader. A run that has ended takes no further move (R108, R212). -/
def State.readerMove (s : State) (m : ReaderMove) : State :=
  match s.status, m with
  | .running, .deliver v => s.deliver v
  | .running, .parseFault => s.readerFault
  | .halted, _ => s
  | .faulted _, _ => s

/-- The reader's moves in a row, in order. -/
def State.readerMoves (s : State) : List ReaderMove → State
  | [] => s
  | m :: ms => (s.readerMove m).readerMoves ms

/-- The moves scheduled before this step; the schedule's first entry is used up. -/
def State.readerTurn (s : State) : State :=
  match s.reader with
  | [] => s
  | ms :: rest => { s with reader := rest }.readerMoves ms

/-! ### Poll and fetch -/

/-- The poll (R181): a value in HANDOFF is latched into INREG and HANDOFF emptied; else INREG keeps its value. -/
def State.poll (s : State) : State :=
  { s with inreg := s.handoff.getD s.inreg, handoff := none }

/-- The fetch (R102): `MAR <- PC; IR <- M[MAR]; PC <- PC + 1`, or FETCH_ADDRESS after `MAR <- PC`, which ends the run. -/
def State.fetch (s : State) : Except State State :=
  let s := { s with mar := s.pc }
  match s.memRead s.mar with
  | none => .error (s.raise .fetchAddress (some s.mar))
  | some w => .ok { s with ir := w, pc := s.pc + 1 }

end Sys2Proof.Machine
end

