-- ==== Sys2Proof/Machine/Operands.lean ====
section
/-!
DEFINITION. The operand forms (R74, R148). Decode puts the twelve low bits, zero-extended, into MAR and pre-reads M[MAR]
into MBR for every word (R103); an instruction then uses MAR as an address or target, MBR as a value or a target, or MBR
as a pointer.
-/

namespace Sys2Proof.Machine

/-- `zext_16` of an address field (R12, R74): zero-extended, not sign-extended, not scaled. -/
def zext16 (x : Addr) : Word := x.setWidth 16

/-- The decode phase's register writes (R103): `MAR <- zext_16(IR[11:0]); MBR <- M[MAR]`. The address is a 12-bit field,
so the pre-fetch cannot fault (R104). -/
def State.decodeOperand (s : State) (x : Addr) : State :=
  { s with mar := zext16 x, mbr := s.mem.get (zext16 x).toNat }

/-- The indirect operand form (R148): the pointer is MBR, a full 16-bit word used unmasked. At or above 4096 the access
raises DATA_ADDRESS before anything is written (R56, R203); below, `act` goes on with the word the pointer names. -/
def indirect (s : State) (act : State → Word → State) : State :=
  match s.memRead s.mbr with
  | none => s.raise .dataAddress (some s.mbr)
  | some w => act s w

end Sys2Proof.Machine
end

