-- ==== Sys2Proof/Machine/Flags.lean ====
section
/-!
DEFINITION. The core has no flags (R29): Add and Subt record nothing, and Skipcond tests AC itself. This file holds that
test and the two arithmetic operations the core has (R168).
-/

namespace Sys2Proof.Machine

/-- `s16(v)` (R12): the two's-complement reading of a word. PRESUMED by the spec itself ("from general knowledge"), a
numbered rule all the same; unsafe if the repository reads words otherwise (log entry 8). -/
def s16 (v : Word) : Int := if v.getLsbD 15 then (v.toNat : Int) - 65536 else (v.toNat : Int)

/-- Whether a Skipcond condition holds for a value of AC (R76, R124). -/
def skipTaken (c : SkipCond) (ac : Word) : Bool :=
  match c with
  | .lessThan => decide (s16 ac < 0)
  | .equal => decide (ac = 0)
  | .greaterThan => decide (0 < s16 ac)

/-- Addition modulo 2^16 (R168): "wraps mod 2^16, no overflow flag". Used by Add and AddI. -/
def addWord (a b : Word) : Word := a + b

/-- Subtraction modulo 2^16 (R168): "wraps, no fault". -/
def subWord (a b : Word) : Word := a - b

end Sys2Proof.Machine
end

