-- ==== Sys2Proof/Machine/Arithmetic.lean ====
section
/-!
DEFINITION. Arithmetic (43_arithmetic.md): Add, Subt, Clear, AddI. All wrap modulo 2^16, set no flag and never fault on
a result (R168).
-/

namespace Sys2Proof.Machine

/-- Add (R160): `AC <- (AC + MBR) mod 2^16`. -/
def execAdd (x : Addr) (s : State) : Host.Outcome State Fault Refusal :=
  let s := s.decodeOperand x
  .next (s.setAc (addWord s.ac s.mbr))

/-- Subt (R162): `AC <- (AC - MBR) mod 2^16`. -/
def execSubt (x : Addr) (s : State) : Host.Outcome State Fault Refusal :=
  let s := s.decodeOperand x
  .next (s.setAc (subWord s.ac s.mbr))

/-- Clear (R164): `AC <- 0`; MAR and MBR are still set by decode. -/
def execClear (n : Addr) (s : State) : Host.Outcome State Fault Refusal :=
  .next ((s.decodeOperand n).setAc 0)

/-- AddI (R166): `AC <- (AC + MemRead(MBR, 1)) mod 2^16`, or DATA_ADDRESS. -/
def execAddI (x : Addr) (s : State) : Host.Outcome State Fault Refusal :=
  .next (indirect (s.decodeOperand x) fun s w => s.setAc (addWord s.ac w))

end Sys2Proof.Machine
end

