-- ==== Sys2Proof/Machine/Control.lean ====
section
/-!
DEFINITION. Control transfer and the words that end a run (41_control.md; R105, R106): the halt check, JnS, Halt,
Skipcond, Jump, JumpI, and the two illegal classes. Each meaning begins with decode's register writes (R103), with PC
already past the instruction.
-/

namespace Sys2Proof.Machine

/-- The halt check (R105): the run ends HALTED, with the PC, IR, MAR and MBR that fetch and decode wrote. -/
def execZeroHalt (x : Addr) (s : State) : Host.Outcome State Fault Refusal :=
  .next (s.decodeOperand x).halt

/-- JnS (R120): `MemWrite(MAR, 1, PC); AC <- MAR + 1; PC <- AC`. MBR keeps the old M[X] (R65). -/
def execJnS (x : Addr) (s : State) : Host.Outcome State Fault Refusal :=
  let s := s.decodeOperand x
  let s := s.memWrite s.mar s.pc
  let s := s.setAc (s.mar + 1)
  .next (s.setPc s.ac)

/-- Halt (R122). -/
def execHalt (n : Addr) (s : State) : Host.Outcome State Fault Refusal :=
  .next (s.decodeOperand n).halt

/-- Skipcond with a valid condition (R124): skips one word when AC meets it. The condition is `MAR[11:10]`, which are
the instruction's own bits; MBR plays no part. -/
def execSkipcond (c : SkipCond) (n : BitVec 10) (s : State) : Host.Outcome State Fault Refusal :=
  let s := s.decodeOperand (c.bits ++ n)
  .next (if skipTaken c s.ac then s.setPc (s.pc + 1) else s)

/-- Skipcond with condition 11 (R124): raises BAD_SKIP_CONDITION with info IR, whatever AC holds. -/
def execSkipcondBad (n : BitVec 10) (s : State) : Host.Outcome State Fault Refusal :=
  let s := s.decodeOperand ((3 : BitVec 2) ++ n)
  .next (s.raise .badSkipCondition (some s.ir))

/-- Jump (R126): `PC <- MAR`. -/
def execJump (x : Addr) (s : State) : Host.Outcome State Fault Refusal :=
  let s := s.decodeOperand x
  .next (s.setPc s.mar)

/-- JumpI (R128): `PC <- MBR`, any word, not masked and not checked here. -/
def execJumpI (x : Addr) (s : State) : Host.Outcome State Fault Refusal :=
  let s := s.decodeOperand x
  .next (s.setPc s.mbr)

/-- Opcode 0xF (R106): raises ILLEGAL_OPCODE with info IR. -/
def execIllegalOpcode (n : Addr) (s : State) : Host.Outcome State Fault Refusal :=
  let s := s.decodeOperand n
  .next (s.raise .illegalOpcode (some s.ir))

end Sys2Proof.Machine
end

