-- ==== Sys2Proof/Machine/InputOutput.lean ====
section
/-!
DEFINITION. Input and Output (44_io.md). Neither ever waits or faults.
-/

namespace Sys2Proof.Machine

/-- Input (R182): `AC <- INREG`, as this step's poll left it. INREG is not cleared (90_conflicts.md C6). -/
def execInput (n : Addr) (s : State) : Host.Outcome State Fault Refusal :=
  let s := s.decodeOperand n
  .next (s.setAc s.inreg)

/-- Output (R186): `OUTREG <- AC; emit(OUTREG)`. -/
def execOutput (n : Addr) (s : State) : Host.Outcome State Fault Refusal :=
  let s := s.decodeOperand n
  .next (s.output s.ac)

end Sys2Proof.Machine
end

