-- ==== Sys2Proof/Machine/Transfer.lean ====
section
/-!
DEFINITION. Loads and stores (42_transfer.md): Load, Store, LoadI, StoreI.
-/

namespace Sys2Proof.Machine

/-- Load (R140): `AC <- MBR`. -/
def execLoad (x : Addr) (s : State) : Host.Outcome State Fault Refusal :=
  let s := s.decodeOperand x
  .next (s.setAc s.mbr)

/-- Store (R142): `MemWrite(MAR, 1, AC)`. MBR keeps the old M[X] (R65). -/
def execStore (x : Addr) (s : State) : Host.Outcome State Fault Refusal :=
  let s := s.decodeOperand x
  .next (s.memWrite s.mar s.ac)

/-- LoadI (R144): `AC <- MemRead(MBR, 1)`, or DATA_ADDRESS. MAR and MBR are not reloaded (92 D9). -/
def execLoadI (x : Addr) (s : State) : Host.Outcome State Fault Refusal :=
  .next (indirect (s.decodeOperand x) fun s w => s.setAc w)

/-- StoreI (R146): `MemWrite(MBR, 1, AC)`, or DATA_ADDRESS with memory unchanged. -/
def execStoreI (x : Addr) (s : State) : Host.Outcome State Fault Refusal :=
  .next (indirect (s.decodeOperand x) fun s _ => s.memWrite s.mbr s.ac)

end Sys2Proof.Machine
end

