-- ==== Sys2Proof/Machine/Dispatch.lean ====
section
/-!
DEFINITION. The dispatch of decode's register writes and the execute phase (R101, R106), one arm per table row.
-/

namespace Sys2Proof.Machine

def exec (i : Instr) (s : State) : Host.Outcome State Fault Refusal :=
  match i with
  | .zeroHalt x => Sys2Proof.Machine.execZeroHalt x s
  | .jnS x => Sys2Proof.Machine.execJnS x s
  | .load x => Sys2Proof.Machine.execLoad x s
  | .store x => Sys2Proof.Machine.execStore x s
  | .add x => Sys2Proof.Machine.execAdd x s
  | .subt x => Sys2Proof.Machine.execSubt x s
  | .input n => Sys2Proof.Machine.execInput n s
  | .output n => Sys2Proof.Machine.execOutput n s
  | .halt n => Sys2Proof.Machine.execHalt n s
  | .skipcond c n => Sys2Proof.Machine.execSkipcond c n s
  | .skipcondBad n => Sys2Proof.Machine.execSkipcondBad n s
  | .jump x => Sys2Proof.Machine.execJump x s
  | .clear n => Sys2Proof.Machine.execClear n s
  | .addI x => Sys2Proof.Machine.execAddI x s
  | .jumpI x => Sys2Proof.Machine.execJumpI x s
  | .loadI x => Sys2Proof.Machine.execLoadI x s
  | .storeI x => Sys2Proof.Machine.execStoreI x s
  | .illegalOpcode n => Sys2Proof.Machine.execIllegalOpcode n s

end Sys2Proof.Machine
end

