-- ==== Sys2Proof/Machine/Cycle.lean ====
section
/-!
DEFINITION. One cycle of the core (R101) and the reader's turn before it.
-/

namespace Sys2Proof.Machine

/-- Poll, fetch, decode, halt check and execute (R100, R101). Decode's choice of instruction tests the halting words
first (R78), and each meaning begins with decode's register writes (R103), so a halting or faulting word leaves MAR and
MBR set all the same. -/
def cycle (s : State) : Host.Outcome State Fault Refusal :=
  match s.poll.fetch with
  | .error t => .next t
  | .ok t => exec (decodeWord t.opcode0Mode t.ir) t

/-- The reader's moves before this step, then one cycle, unless the reader ended the run (R184, R206). -/
def runStep (s : State) : Host.Outcome State Fault Refusal :=
  match s.readerTurn.status with
  | .running => cycle s.readerTurn
  | .halted => .next s.readerTurn
  | .faulted _ => .next s.readerTurn

/-- The word `w` placed where the next fetch reads it (R70). At a PC with no memory behind it there is nowhere to place
it, and the state is unchanged. -/
def placeWord (s : State) (w : Word) : State :=
  if s.pc.toNat < Config.memWords then s.memWrite s.pc w else s

end Sys2Proof.Machine
end

