-- ==== Sys2Proof/Machine/Step.lean ====
section
/-!
DEFINITION. The step of the machine. Only a state with STATUS = RUNNING has one (R108).
-/

namespace Sys2Proof.Machine

/-- One step (R100). A run that has ended has no step, so there `step` answers a fault that names how it ended. -/
def step (s : State) : Host.Outcome State Fault Refusal :=
  match s.status with
  | .running => runStep s
  | .halted => .fault .halted
  | .faulted r => .fault (.faulted r.code)

/-- `s` with the instruction word `w` stored at PC, where the next step fetches. -/
def State.withFetchWord (s : State) (nbits w : Nat) : State :=
  placeWord s (BitVec.ofNat 16 (w % 2 ^ nbits))

end Sys2Proof.Machine
end

