-- ==== Sys2Proof/Machine/Ports.lean ====
section
/-!
DEFINITION. The core's ports (R189) and the observation at the end of a run (R212, R215): `load_image`, `out`, `status`
and `dump`. The ports `deliver` and `reader_fault` are `State.deliver` and `State.readerFault` in Ops.lean. None of
these changes what a step does.
-/

namespace Sys2Proof.Machine

/-- The words of an image stored at `a`, `a + 1`, ... (R88, R230). -/
def Memory.loadWords (m : Memory) (a : Nat) : List Word → Memory
  | [] => m
  | w :: ws => Memory.loadWords (m.set a w) (a + 1) ws

/-- `load_image(start, words)` (R230), under one `OPCODE0_MODE` and one schedule of the reader: the core's reset and
the start of a run; nothing of an earlier run survives (R232). No state where the image is refused (R231). -/
def loadImage (mode : Opcode0Mode) (schedule : List (List ReaderMove)) (start : Nat) (words : List Word) :
    Option State :=
  if start < Config.memWords ∧ start + words.length ≤ Config.memWords then
    some
      { pc := BitVec.ofNat 16 start
        ir := 0
        ac := 0
        mar := 0
        mbr := 0
        inreg := 0
        outreg := 0
        mem := Memory.loadWords [] start words
        status := .running
        handoff := none
        out := []
        opcode0Mode := mode
        reader := schedule }
  else none

/-- The numeric code of a fault (R201). -/
def faultNumber : FaultCode → Nat
  | .illegalOpcode => 1
  | .badSkipCondition => 2
  | .fetchAddress => 3
  | .dataAddress => 4
  | .inputParse => 5

/-- The register dump (R215): the seven registers. -/
structure Dump where
  pc : Word
  ir : Word
  ac : Word
  mar : Word
  mbr : Word
  inreg : Word
  outreg : Word
deriving DecidableEq, Repr

/-- `dump` (R189): valid only when HALTED; a run that faults has none (R215). -/
def State.dump (s : State) : Option Dump :=
  match s.status with
  | .halted => some ⟨s.pc, s.ir, s.ac, s.mar, s.mbr, s.inreg, s.outreg⟩
  | .running => none
  | .faulted _ => none

/-- How a run ended and what may be observed of it (R212). -/
inductive RunEnd where
  /-- OUT, the dump, and for the model the final memory. -/
  | halted (out : List Word) (dump : Dump) (mem : Memory)
  /-- OUT and the code, nothing else (R202). -/
  | faulted (out : List Word) (code : FaultCode)
deriving DecidableEq, Repr

/-- The observation of an ended run (R212); a running state has not ended. -/
def State.runEnd (s : State) : Option RunEnd :=
  match s.status with
  | .running => none
  | .halted => some (.halted s.out ⟨s.pc, s.ir, s.ac, s.mar, s.mbr, s.inreg, s.outreg⟩ s.mem)
  | .faulted r => some (.faulted s.out r.code)

/-- The number the host prints for an emitted word, under each value of the open parameter `P_OUT_RENDER` (R187). -/
def renderWord (r : OutRender) (w : Word) : Int :=
  match r with
  | .unsigned => (w.toNat : Int)
  | .signed => s16 w

end Sys2Proof.Machine
end

