-- ==== Sys2Proof/Machine/Assembler.lean ====
section
/-!
DEFINITION. The two-pass assembler (R80 to R92), the toolchain around the core (R5), from source text, as characters, to
an image. Where the spec gives a piece of text no reading (91_not_in_source.md N12 to N14) it is refused under
`unspecified`: safe, since no image comes of it (log entry 9). Signs before numerals and labels above 0xFFF are log entry
14's.
-/

namespace Sys2Proof.Machine

/-- Why there is no image. The first three are the source's error kinds (R87); the others are the refusals of R91, and
`unspecified` for text the spec gives no reading. All of them block execution (R87). -/
inductive AsmError where
  | syntaxError
  | undefinedSymbol (name : List Char)
  | unknownMnemonic (name : List Char)
  /-- A numeric value outside its range (R91); and, DESIGN CHOICE, safe (log entry 14), a label whose address is above
  0xFFF, or a negative `Hex` literal. -/
  | outOfRange
  /-- The image's last word would lie at or above 4096 (R91). -/
  | imageTooLong
  /-- One label bound twice (R82, R91). -/
  | duplicateLabel (name : List Char)
  /-- A label with an empty body (R82, R91). -/
  | emptyBody
  /-- An operand after Input, Output, Halt or Clear (R89). -/
  | operandRefused
  /-- The spec gives this text no reading (N13, N14). DESIGN CHOICE, safe. -/
  | unspecified
deriving DecidableEq, Repr

/-- The assembler's output (R88): the start address and the ordered words. -/
structure Image where
  start : Nat
  words : List Word
deriving DecidableEq, Repr

/-- A line after pass 1's split (R82): its label, if any, and its body's words. -/
structure SourceLine where
  label : Option (List Char)
  body : List (List Char)
deriving DecidableEq, Repr

/-! ### Text -/

/-- Everything before the first `c`, and what follows it if there is a `c`. -/
def splitFirst (c : Char) : List Char → List Char × Option (List Char)
  | [] => ([], none)
  | d :: ds => if d = c then ([], some ds) else (d :: (splitFirst c ds).1, (splitFirst c ds).2)

/-- Add a character to the front of the first of several pieces. -/
def consFirst (c : Char) : List (List Char) → List (List Char)
  | [] => [[c]]
  | p :: ps => (c :: p) :: ps

/-- The text cut at every character that meets `p`, which is dropped; pieces may be empty. -/
def splitAll (p : Char → Bool) : List Char → List (List Char)
  | [] => [[]]
  | c :: cs => if p c then [] :: splitAll p cs else consFirst c (splitAll p cs)

/-- The whitespace-separated words of a text. Trimming (R80) is no step of its own: words hold no whitespace. -/
def wordsOf (t : List Char) : List (List Char) :=
  (splitAll Char.isWhitespace t).filter fun w => !w.isEmpty

/-- The source's lines, comments deleted and empty lines dropped (R80). -/
def sourceLines (t : List Char) : List (List Char) :=
  ((splitAll (fun c => c == '\n') t).map fun l => (splitFirst '/' l).1).filter fun l => !(wordsOf l).isEmpty

/-- The value of a decimal digit. -/
def decimalDigit (c : Char) : Option Nat :=
  if '0' ≤ c ∧ c ≤ '9' then some (c.toNat - 48) else none

/-- The value of a hexadecimal digit, in either letter case (PRESUMED, log entry 9). -/
def hexDigit (c : Char) : Option Nat :=
  if '0' ≤ c ∧ c ≤ '9' then some (c.toNat - 48)
  else if 'A' ≤ c ∧ c ≤ 'F' then some (c.toNat - 55)
  else if 'a' ≤ c ∧ c ≤ 'f' then some (c.toNat - 87)
  else none

/-- A run of digits as a number, on top of `acc`. -/
def digitsFrom (base : Nat) (digit : Char → Option Nat) (acc : Nat) : List Char → Option Nat
  | [] => some acc
  | c :: cs =>
    match digit c with
    | none => none
    | some d => digitsFrom base digit (acc * base + d) cs

/-- A decimal literal: one digit or more and nothing else. -/
def parseDecimal (t : List Char) : Option Nat :=
  if t.isEmpty then none else digitsFrom 10 decimalDigit 0 t

/-- A hexadecimal literal, with no prefix: R81 rules 0x out for ORG; that Hex and Skipcond admit none either is a DESIGN
CHOICE, safe (log entry 14). -/
def parseHex (t : List Char) : Option Nat :=
  if t.isEmpty then none else digitsFrom 16 hexDigit 0 t

/-- A sign followed by a decimal numeral. The spec does not say whether that parses as a literal (N12). -/
def signedNumeral : List Char → Bool
  | [] => false
  | c :: ds => (c == '+' || c == '-') && (parseDecimal ds).isSome

/-- A number within a bound, or the refusal `outOfRange` (R91, log entry 14). -/
def bounded (max : Nat) (v : Nat) : Except AsmError Nat :=
  if v ≤ max then .ok v else .error .outOfRange

/-! ### Pass 1 -/

/-- A line split into its label and body (R82): `LABEL, REST`, at the first comma. DESIGN CHOICE (log entry 9): whitespace
before the comma is dropped and none is asked for after it; any one word is a label, and a label that is not one word has no
reading. -/
def splitLine (l : List Char) : Except AsmError SourceLine :=
  match splitFirst ',' l with
  | (body, none) => .ok ⟨none, wordsOf body⟩
  | (label, some rest) =>
    match wordsOf label, wordsOf rest with
    | [_], [] => .error .emptyBody
    | [name], body => .ok ⟨some name, body⟩
    | _, _ => .error .unspecified

/-- Every line split, or the first line's error. -/
def splitLines : List (List Char) → Except AsmError (List SourceLine)
  | [] => .ok []
  | l :: ls =>
    match splitLine l, splitLines ls with
    | .error e, _ => .error e
    | .ok _, .error e => .error e
    | .ok x, .ok xs => .ok (x :: xs)

/-- The address a label is bound to. -/
def lookupSymbol (name : List Char) : List (List Char × Nat) → Option Nat
  | [] => none
  | (n, a) :: rest => if n = name then some a else lookupSymbol name rest

/-- The symbol table (R82): the k-th line after ORG has address start + k, label or not, END and later lines included. -/
def bindLabels (table : List (List Char × Nat)) (a : Nat) : List SourceLine → Except AsmError (List (List Char × Nat))
  | [] => .ok table
  | l :: ls =>
    match l.label with
    | none => bindLabels table (a + 1) ls
    | some name =>
      match lookupSymbol name table with
      | some _ => .error (.duplicateLabel name)
      | none => bindLabels (table ++ [(name, a)]) (a + 1) ls

/-! ### Pass 2 -/

/-- What a mnemonic takes (R84, R85, R89). -/
inductive OperandKind where
  /-- One operand: a decimal literal or a label. -/
  | address
  /-- One operand: a raw hexadecimal field. -/
  | condition
  /-- No operand. -/
  | nothing
deriving DecidableEq, Repr

/-- The mnemonics (R83, case-sensitive), their opcodes (R75) and what they take (R89). -/
def mnemonicRow (m : List Char) : Option (BitVec 4 × OperandKind) :=
  match m with
  | ['J', 'n', 'S'] => some (0x0, .address)
  | ['L', 'o', 'a', 'd'] => some (0x1, .address)
  | ['S', 't', 'o', 'r', 'e'] => some (0x2, .address)
  | ['A', 'd', 'd'] => some (0x3, .address)
  | ['S', 'u', 'b', 't'] => some (0x4, .address)
  | ['I', 'n', 'p', 'u', 't'] => some (0x5, .nothing)
  | ['O', 'u', 't', 'p', 'u', 't'] => some (0x6, .nothing)
  | ['H', 'a', 'l', 't'] => some (0x7, .nothing)
  | ['S', 'k', 'i', 'p', 'c', 'o', 'n', 'd'] => some (0x8, .condition)
  | ['J', 'u', 'm', 'p'] => some (0x9, .address)
  | ['C', 'l', 'e', 'a', 'r'] => some (0xA, .nothing)
  | ['A', 'd', 'd', 'I'] => some (0xB, .address)
  | ['J', 'u', 'm', 'p', 'I'] => some (0xC, .address)
  | ['L', 'o', 'a', 'd', 'I'] => some (0xD, .address)
  | ['S', 't', 'o', 'r', 'e', 'I'] => some (0xE, .address)
  | _ => none

/-- The operand of a mnemonic other than Skipcond (R84): a decimal literal first, else a name looked up in the symbol table,
however it is spelled. DESIGN CHOICE (log entry 14), both safe: a signed numeral, of which the spec does not say whether it
parses, is refused as `unspecified`; a label bound above 0xFFF, as R82 can bind one on END or a later line, has no 12-bit
value and is refused as `outOfRange`, which R91's list does not name. -/
def resolveOperand (table : List (List Char × Nat)) (t : List Char) : Except AsmError Nat :=
  match parseDecimal t with
  | some v => bounded 0xFFF v
  | none =>
    if signedNumeral t then .error .unspecified
    else
      match lookupSymbol t table with
      | some a => bounded 0xFFF a
      | none => .error (.undefinedSymbol t)

/-- The operand value of a mnemonic that takes `k`, from the words after the mnemonic (R84, R85, R89). -/
def operandValue (table : List (List Char × Nat)) (k : OperandKind) (ops : List (List Char)) : Except AsmError Nat :=
  match k, ops with
  | .nothing, [] => .ok 0
  | .nothing, _ :: _ => .error .operandRefused
  | .address, [] => .error .syntaxError
  | .address, [t] => resolveOperand table t
  | .address, _ :: _ :: _ => .error .unspecified
  | .condition, [] => .error .syntaxError
  | .condition, [t] =>
    match parseHex t with
    | some v => bounded 0xFFF v
    | none => .error .unspecified
  | .condition, _ :: _ :: _ => .error .unspecified

/-- A directive's literal, at most 0xFFFF, emitted verbatim (R86): text that does not parse is a SyntaxError, a negative
`Dec` number is out of range (R91). DESIGN CHOICE (log entry 14), all safe: a literal with a plus sign does not parse, a
negative `Hex` number is out of range as a negative `Dec` number is, and -0 counts as negative. -/
def directiveWord (parse : List Char → Option Nat) (ops : List (List Char)) : Except AsmError Word :=
  match ops with
  | [] => .error .syntaxError
  | [t] =>
    match parse t with
    | some v => (bounded 0xFFFF v).map (BitVec.ofNat 16)
    | none =>
      match t with
      | '-' :: ds => if (parse ds).isSome then .error .outOfRange else .error .syntaxError
      | _ => .error .syntaxError
  | _ :: _ :: _ => .error .unspecified

/-- The word of one body (R83, R86): `(op << 12) | v` for a mnemonic. -/
def emitBody (table : List (List Char × Nat)) (m : List Char) (ops : List (List Char)) : Except AsmError Word :=
  match m with
  | ['H', 'e', 'x'] => directiveWord parseHex ops
  | ['D', 'e', 'c'] => directiveWord parseDecimal ops
  | ['O', 'R', 'G'] => .error .unspecified
  | _ =>
    match mnemonicRow m with
    | none => .error (.unknownMnemonic m)
    | some (op, k) => (operandValue table k ops).map fun v => mkWord op (BitVec.ofNat 12 v)

/-- Pass 2 (R83, R86): one word a line, in order, up to END or the last line. -/
def emitLines (table : List (List Char × Nat)) : List SourceLine → Except AsmError (List Word)
  | [] => .ok []
  | l :: ls =>
    match l.body with
    | [] => .error .emptyBody
    | [['E', 'N', 'D']] => .ok []
    | ['E', 'N', 'D'] :: _ :: _ => .error .unspecified
    | m :: ops =>
      match emitBody table m ops, emitLines table ls with
      | .error e, _ => .error e
      | .ok _, .error e => .error e
      | .ok w, .ok ws => .ok (w :: ws)

/-! ### The whole -/

/-- The ORG line (R81): its address is the load and start address. An address with a sign is malformed (DESIGN CHOICE, safe,
log entry 14). -/
def parseOrg (l : List Char) : Except AsmError Nat :=
  match wordsOf l with
  | [['O', 'R', 'G'], t] =>
    match parseHex t with
    | some v => bounded 0xFFF v
    | none => .error .syntaxError
  | _ => .error .syntaxError

/-- An image that ends inside memory, or the refusal of R91. -/
def fitImage (start : Nat) (words : List Word) : Except AsmError Image :=
  if start + words.length ≤ Config.memWords then .ok ⟨start, words⟩ else .error .imageTooLong

/-- Both passes over the lines after ORG (R82, R83): pass 1 is complete before pass 2 begins. -/
def assembleLines (start : Nat) (lines : List SourceLine) : Except AsmError Image :=
  match bindLabels [] start lines with
  | .error e => .error e
  | .ok table =>
    match emitLines table lines with
    | .error e => .error e
    | .ok words => fitImage start words

/-- The assembler (R80 to R91): an image, or an error that blocks the run (R87). -/
def assemble (source : List Char) : Except AsmError Image :=
  match sourceLines source with
  | [] => .error .syntaxError
  | org :: rest =>
    match parseOrg org, splitLines rest with
    | .error e, _ => .error e
    | .ok _, .error e => .error e
    | .ok start, .ok lines => assembleLines start lines

end Sys2Proof.Machine
end

