-- ==== Sys2Proof/Safety.lean ====
section
/-!
DEFINITION. The terms that claims use: a state that is ready to run an instruction, the state its fetch leaves, the
instruction a step runs, and the invariant every step keeps.
-/

namespace Sys2Proof.Machine

/-- The reader's moves before the next step are deliveries only, so the run is not ended by them. -/
def ReaderMove.isDelivery : ReaderMove → Bool
  | .deliver _ => true
  | .parseFault => false

/-- A state whose next step fetches and runs an instruction: RUNNING, still RUNNING after the reader's turn, and a PC
with memory behind it (R102, R108). -/
def State.Ready (s : State) : Prop :=
  s.status = .running ∧ s.readerTurn.status = .running ∧ s.pc.toNat < Config.memWords

/-- The state after the reader's turn, the poll and the fetch of a ready state (R101). -/
def State.fetched (s : State) : State :=
  { s.readerTurn.poll with mar := s.pc, ir := s.mem.get s.pc.toNat, pc := s.pc + 1 }

/-- The instruction the next step of a ready state runs. -/
def State.instruction (s : State) : Instr := decodeWord s.opcode0Mode (s.mem.get s.pc.toNat)

/-- The word the next step of a ready state fetches. -/
def State.nextWord (s : State) : Word := s.mem.get s.pc.toNat

/-- The word at the address field of the next word: the operand that decode pre-reads (R103). -/
def State.nextOperand (s : State) : Word := s.mem.get (addrField s.nextWord).toNat

/-- The instructions that write AC (R22). -/
def writesAc : Instr → Bool
  | .jnS _ | .load _ | .add _ | .subt _ | .input _ | .clear _ | .addI _ | .loadI _ => true
  | .zeroHalt _ | .store _ | .output _ | .halt _ | .skipcond _ _ | .skipcondBad _ | .jump _ | .jumpI _ | .storeI _
  | .illegalOpcode _ => false

/-- The instructions that write PC in their execute phase (R23, R33). -/
def writesPc : Instr → Bool
  | .jnS _ | .skipcond _ _ | .jump _ | .jumpI _ => true
  | .zeroHalt _ | .load _ | .store _ | .add _ | .subt _ | .input _ | .output _ | .halt _ | .skipcondBad _ | .clear _
  | .addI _ | .loadI _ | .storeI _ | .illegalOpcode _ => false

/-- The instructions that write memory (R33, R52). -/
def storesWord : Instr → Bool
  | .jnS _ | .store _ | .storeI _ => true
  | .zeroHalt _ | .load _ | .add _ | .subt _ | .input _ | .output _ | .halt _ | .skipcond _ _ | .skipcondBad _ | .jump _
  | .clear _ | .addI _ | .jumpI _ | .loadI _ | .illegalOpcode _ => false

/-- Output, the one instruction that writes OUTREG and OUT (R28, R32). -/
def isOutput : Instr → Bool
  | .output _ => true
  | .zeroHalt _ | .jnS _ | .load _ | .store _ | .add _ | .subt _ | .input _ | .halt _ | .skipcond _ _ | .skipcondBad _
  | .jump _ | .clear _ | .addI _ | .jumpI _ | .loadI _ | .storeI _ | .illegalOpcode _ => false

/-- The words that end a run HALTED (R204). -/
def haltsRun : Instr → Bool
  | .zeroHalt _ | .halt _ => true
  | .jnS _ | .load _ | .store _ | .add _ | .subt _ | .input _ | .output _ | .skipcond _ _ | .skipcondBad _ | .jump _
  | .clear _ | .addI _ | .jumpI _ | .loadI _ | .storeI _ | .illegalOpcode _ => false

/-- STATUS is FAULTED: no claim may read the registers or memory (R202). -/
def Status.isFaulted : Status → Bool
  | .running => false
  | .halted => false
  | .faulted _ => true

/-- A fault record that the core or the reader can raise (R201): each code with the info its cause gives. -/
def FaultRecord.wf (r : FaultRecord) : Bool :=
  match r.code, r.info with
  | .illegalOpcode, some w => opcodeField w == 0xF
  | .badSkipCondition, some w => opcodeField w == 0x8 && condBits (addrField w) == 3
  | .fetchAddress, some a => decide (Config.memWords ≤ a.toNat)
  | .dataAddress, some a => decide (Config.memWords ≤ a.toNat)
  | .inputParse, none => true
  | .illegalOpcode, none => false
  | .badSkipCondition, none => false
  | .fetchAddress, none => false
  | .dataAddress, none => false
  | .inputParse, some _ => false

/-- At a step boundary MAR holds the address field of IR, so MAR ≤ 0x0FFF (R25, R103). -/
def State.marLatched (s : State) : Prop := s.mar = zext16 (addrField s.ir)

/-- PC is at most 0x1001 unless the last instruction was JumpI, opcode 0xC (R23). -/
def State.pcBounded (s : State) : Prop := s.pc.toNat ≤ 0x1001 ∨ opcodeField s.ir = 0xC

/-- What STATUS says of the rest of the state: while RUNNING, MAR and PC as decode and R23 leave them; once HALTED, IR
is a word that halts (R204); once FAULTED, a record of R201. -/
def State.statusOk (s : State) : Prop :=
  match s.status with
  | .running => s.marLatched ∧ s.pcBounded
  | .halted => s.marLatched ∧ s.pcBounded ∧ (zeroHaltWord s.opcode0Mode s.ir = true ∨ opcodeField s.ir = 0x7)
  | .faulted r => r.wf = true

/-- The invariant of the machine: memory in canonical form, every listed address below 4096, and STATUS in step with
the registers. -/
def State.Inv (s : State) : Prop := s.mem.wf = true ∧ s.statusOk

end Sys2Proof.Machine
end

