-- ==== Sys2Proof/Certificates/Slice0/Obligations.lean ====
section
/-!
DEFINITION. The statements for the provers. Each says which rule of the spec it formalises; no proof stands here.
No statement says what a register or a word of memory holds in a FAULTED state (R202). Where one compares whole next states,
or says of every next state that its memory is canonical, its docstring names log entry 6.
-/

open Sys2Proof Sys2Proof.Machine

/-! ### Encoding -/

/-- Words written out from R71 to R78 decode to what they stand for: one per table row. The two modes are the
spec's decision D1 (log entry 1). -/
def Obligations.SpecWordsDecode : Prop :=
  decodeWord .haltOnZeroWord 0x0000 = .zeroHalt 0x000 ∧ decodeWord .haltOnZeroOpcode 0x0200 = .zeroHalt 0x200 ∧
  decodeWord .haltOnZeroWord 0x0200 = .jnS 0x200 ∧ decodeWord .haltOnZeroWord 0x1104 = .load 0x104 ∧
  decodeWord .haltOnZeroWord 0x2106 = .store 0x106 ∧ decodeWord .haltOnZeroWord 0x3105 = .add 0x105 ∧
  decodeWord .haltOnZeroWord 0x4208 = .subt 0x208 ∧ decodeWord .haltOnZeroWord 0x5000 = .input 0x000 ∧
  decodeWord .haltOnZeroWord 0x6000 = .output 0x000 ∧ decodeWord .haltOnZeroWord 0x7ABC = .halt 0xABC ∧
  decodeWord .haltOnZeroWord 0x87FF = .skipcond .equal 0x3FF ∧ decodeWord .haltOnZeroWord 0x8C00 = .skipcondBad 0x000 ∧
  decodeWord .haltOnZeroWord 0x9200 = .jump 0x200 ∧ decodeWord .haltOnZeroWord 0xAFFF = .clear 0xFFF ∧
  decodeWord .haltOnZeroWord 0xB40F = .addI 0x40F ∧ decodeWord .haltOnZeroWord 0xC304 = .jumpI 0x304 ∧
  decodeWord .haltOnZeroWord 0xD40F = .loadI 0x40F ∧ decodeWord .haltOnZeroWord 0xE412 = .storeI 0x412 ∧
  decodeWord .haltOnZeroWord 0xF123 = .illegalOpcode 0x123

/-- Decode of encode is the instruction itself, for every well-formed instruction, every operand and both modes (R71 to
R78; the modes are the spec's decision D1, log entry 1). -/
def Obligations.DecodeOfEncode : Prop :=
  ∀ (m : Opcode0Mode) (i : Instr), i.wellFormed m = true → decodeWord m (encode i) = i

/-- Decode is total and loses nothing: every word is a well-formed instruction's, and encoding it gives the word back
(R79, by the spec's inference from R75, R77 and R78; the modes are its decision D1, log entry 1). -/
def Obligations.EveryWordDecodes : Prop :=
  ∀ (m : Opcode0Mode) (w : Word), (decodeWord m w).wellFormed m = true ∧ encode (decodeWord m w) = w

/-- R78: which opcode-0 words halt and which are JnS, and that the mode matters for no other word. The two modes are the
spec's decision D1 (90_conflicts.md C1), carried in State by log entry 1. -/
def Obligations.HaltCheckBeforeDispatch : Prop :=
  (∀ m, decodeWord m 0x0000 = .zeroHalt 0) ∧
  (∀ x : Addr, decodeWord .haltOnZeroOpcode (mkWord 0x0 x) = .zeroHalt x) ∧
  (∀ x : Addr, x ≠ 0 → decodeWord .haltOnZeroWord (mkWord 0x0 x) = .jnS x) ∧
  (∀ (m n : Opcode0Mode) (w : Word), opcodeField w ≠ 0 → decodeWord m w = decodeWord n w) ∧
  (∀ (x : Addr) (s : State), ∃ t, exec (.zeroHalt x) s = .next t ∧ t.status = .halted)

/-- R76: the four Skipcond conditions, their words, as decoded and as the assembler emits them, and the tests on AC by
its sign bit and by its signed reading. Two's complement is the spec's general knowledge (R12), PRESUMED in log entry 8.
-/
def Obligations.SkipcondConditions : Prop :=
  (∀ m, decodeWord m 0x8000 = .skipcond .lessThan 0 ∧ decodeWord m 0x8400 = .skipcond .equal 0 ∧
    decodeWord m 0x8800 = .skipcond .greaterThan 0 ∧ decodeWord m 0x8C00 = .skipcondBad 0) ∧
  (emitBody [] "Skipcond".toList ["000".toList] = .ok 0x8000 ∧ emitBody [] "Skipcond".toList ["400".toList] = .ok 0x8400 ∧
    emitBody [] "Skipcond".toList ["800".toList] = .ok 0x8800 ∧
    emitBody [] "Skipcond".toList ["C00".toList] = .ok 0x8C00) ∧
  (∀ ac : Word,
    (skipTaken .lessThan ac = true ↔ s16 ac < 0) ∧ (skipTaken .lessThan ac = true ↔ ac.getLsbD 15 = true) ∧
    (skipTaken .equal ac = true ↔ ac = 0) ∧
    (skipTaken .greaterThan ac = true ↔ 0 < s16 ac) ∧
    (skipTaken .greaterThan ac = true ↔ ac.getLsbD 15 = false ∧ ac ≠ 0)) ∧
  (∀ (n : BitVec 10) (s : State), ∃ t,
    exec (.skipcondBad n) s = .next t ∧ t.status = .faulted ⟨.badSkipCondition, some s.ir⟩)

/-! ### What each instruction does. Each names its word, and the whole next state: every field the statement does not
list keeps its value. MAR and MBR are decode's (R103). -/

/-- R105: which words the halt check stops on, and that the run then ends with what fetch and decode wrote. The two
modes are the spec's decision D1. -/
def Obligations.HaltCheckEndsRun : Prop :=
  (∀ w, zeroHaltWord .haltOnZeroWord w = true ↔ w = 0x0000) ∧
  (∀ w, zeroHaltWord .haltOnZeroOpcode w = true ↔ opcodeField w = 0x0) ∧
  (∀ m w, zeroHaltWord m w = true → decodeWord m w = .zeroHalt (addrField w)) ∧
  (∀ m w x, decodeWord m w = .zeroHalt x → zeroHaltWord m w = true) ∧
  (∀ (x : Addr) (s : State), exec (.zeroHalt x) s =
    .next { s with mar := zext16 x, mbr := s.mem.get x.toNat, status := .halted })

/-- R120: JnS stores the return address at X and continues at X + 1, with X + 1 in AC. That MBR keeps the old M[X] is
the spec's decision D9, which words are JnS its decision D1 (log entries 1 and 10). -/
def Obligations.JnSStoresReturnAddress : Prop :=
  (∀ x : Addr, x ≠ 0 → decodeWord .haltOnZeroWord (mkWord 0x0 x) = .jnS x) ∧
  (∀ (w : Word) (x : Addr), decodeWord .haltOnZeroOpcode w ≠ .jnS x) ∧
  (∀ (x : Addr) (s : State), ∃ t, exec (.jnS x) s = .next t ∧
    t = { s with mar := zext16 x, mbr := s.mem.get x.toNat, ac := zext16 x + 1, pc := zext16 x + 1, mem := t.mem } ∧
    ∀ a, t.mem.get a = if a = x.toNat then s.pc else s.mem.get a)

/-- R140: Load. -/
def Obligations.LoadCopiesMemoryToAc : Prop :=
  (∀ m (x : Addr), decodeWord m (mkWord 0x1 x) = .load x) ∧
  (∀ (x : Addr) (s : State), exec (.load x) s =
    .next { s with mar := zext16 x, mbr := s.mem.get x.toNat, ac := s.mem.get x.toNat })

/-- R142: Store; every other word of memory is unchanged. That MBR keeps the word that was at X before is the spec's
decision D9 (log entry 10). -/
def Obligations.StoreWritesAcToMemory : Prop :=
  (∀ m (x : Addr), decodeWord m (mkWord 0x2 x) = .store x) ∧
  (∀ (x : Addr) (s : State), ∃ t, exec (.store x) s = .next t ∧
    t = { s with mar := zext16 x, mbr := s.mem.get x.toNat, mem := t.mem } ∧
    ∀ a, t.mem.get a = if a = x.toNat then s.ac else s.mem.get a)

/-- R160, and R168's modulus: Add. -/
def Obligations.AddAddsModulo : Prop :=
  (∀ m (x : Addr), decodeWord m (mkWord 0x3 x) = .add x) ∧
  (∀ (x : Addr) (s : State), ∃ v : Word, v.toNat = (s.ac.toNat + (s.mem.get x.toNat).toNat) % 65536 ∧
    exec (.add x) s = .next { s with mar := zext16 x, mbr := s.mem.get x.toNat, ac := v })

/-- R162, and R168's modulus: Subt. -/
def Obligations.SubtSubtractsModulo : Prop :=
  (∀ m (x : Addr), decodeWord m (mkWord 0x4 x) = .subt x) ∧
  (∀ (x : Addr) (s : State), ∃ v : Word,
    (v.toNat : Int) = ((s.ac.toNat : Int) - (s.mem.get x.toNat).toNat + 65536) % 65536 ∧
    exec (.subt x) s = .next { s with mar := zext16 x, mbr := s.mem.get x.toNat, ac := v })

/-- R182: Input copies INREG, which the poll of the same step latched, and leaves INREG as it is. -/
def Obligations.InputCopiesInreg : Prop :=
  (∀ m (n : Addr), decodeWord m (mkWord 0x5 n) = .input n) ∧
  (∀ (n : Addr) (s : State), exec (.input n) s =
    .next { s with mar := zext16 n, mbr := s.mem.get n.toNat, ac := s.inreg })

/-- R186: Output copies AC to OUTREG and appends it to OUT. -/
def Obligations.OutputEmitsAc : Prop :=
  (∀ m (n : Addr), decodeWord m (mkWord 0x6 n) = .output n) ∧
  (∀ (n : Addr) (s : State), exec (.output n) s =
    .next { s with mar := zext16 n, mbr := s.mem.get n.toNat, outreg := s.ac, out := s.out ++ [s.ac] })

/-- R122: Halt, whatever its ignored bits. -/
def Obligations.HaltEndsRun : Prop :=
  (∀ m (n : Addr), decodeWord m (mkWord 0x7 n) = .halt n) ∧
  (∀ (n : Addr) (s : State), exec (.halt n) s =
    .next { s with mar := zext16 n, mbr := s.mem.get n.toNat, status := .halted }) ∧
  (∀ s : State, s.dump.isSome = true ↔ s.status = .halted)

/-- R124: Skipcond skips one word exactly when AC meets the condition, and faults on condition 11 whatever AC holds. The
signed reading of AC is two's complement, PRESUMED in log entry 8 (R12). -/
def Obligations.SkipcondSkips : Prop :=
  (∀ m (c : SkipCond) (n : BitVec 10), decodeWord m (mkWord 0x8 (c.bits ++ n)) = .skipcond c n) ∧
  (∀ m (n : BitVec 10), decodeWord m (mkWord 0x8 (3#2 ++ n)) = .skipcondBad n) ∧
  (∀ (c : SkipCond) (n : BitVec 10) (s : State), exec (.skipcond c n) s =
    .next { s with
      mar := zext16 (c.bits ++ n)
      mbr := s.mem.get (c.bits ++ n : Addr).toNat
      pc := match c with
        | .lessThan => if s16 s.ac < 0 then s.pc + 1 else s.pc
        | .equal => if s.ac = 0x0000 then s.pc + 1 else s.pc
        | .greaterThan => if 0 < s16 s.ac then s.pc + 1 else s.pc }) ∧
  (∀ (n : BitVec 10) (s : State), ∃ t,
    exec (.skipcondBad n) s = .next t ∧ t.status = .faulted ⟨.badSkipCondition, some s.ir⟩ ∧ t.out = s.out)

/-- R126: Jump. -/
def Obligations.JumpContinuesAtTarget : Prop :=
  (∀ m (x : Addr), decodeWord m (mkWord 0x9 x) = .jump x) ∧
  (∀ (x : Addr) (s : State), exec (.jump x) s =
    .next { s with mar := zext16 x, mbr := s.mem.get x.toNat, pc := zext16 x })

/-- R164: Clear, whatever its ignored bits. -/
def Obligations.ClearZeroesAc : Prop :=
  (∀ m (n : Addr), decodeWord m (mkWord 0xA n) = .clear n) ∧
  (∀ (n : Addr) (s : State), exec (.clear n) s =
    .next { s with mar := zext16 n, mbr := s.mem.get n.toNat, ac := 0x0000 })

/-- R166: AddI adds the word its pointer names; a pointer with no memory behind it faults. That the sum wraps, that the
access faults, and that MAR and MBR keep decode's values are the spec's decisions D8, D4 and D9 (log entry 10). R202
keeps the statement from reading AC after the fault. -/
def Obligations.AddIAddsThroughPointer : Prop :=
  (∀ m (x : Addr), decodeWord m (mkWord 0xB x) = .addI x) ∧
  (∀ (x : Addr) (s : State), (s.mem.get x.toNat).toNat < 4096 →
    ∃ v : Word, v.toNat = (s.ac.toNat + (s.mem.get (s.mem.get x.toNat).toNat).toNat) % 65536 ∧
      exec (.addI x) s = .next { s with mar := zext16 x, mbr := s.mem.get x.toNat, ac := v }) ∧
  (∀ (x : Addr) (s : State), 4096 ≤ (s.mem.get x.toNat).toNat →
    ∃ t, exec (.addI x) s = .next t ∧ t.status = .faulted ⟨.dataAddress, some (s.mem.get x.toNat)⟩ ∧ t.out = s.out)

/-- R128: JumpI takes any word as its target, unchecked and unmasked, by the spec's decision D5 (log entry 10). -/
def Obligations.JumpIContinuesAtPointer : Prop :=
  (∀ m (x : Addr), decodeWord m (mkWord 0xC x) = .jumpI x) ∧
  (∀ (x : Addr) (s : State), exec (.jumpI x) s =
    .next { s with mar := zext16 x, mbr := s.mem.get x.toNat, pc := s.mem.get x.toNat })

/-- R144: LoadI, and its fault, by the spec's decision D4; that MAR and MBR keep decode's values is its D9 (log entry
10). R202 keeps the statement from reading AC after the fault. -/
def Obligations.LoadILoadsThroughPointer : Prop :=
  (∀ m (x : Addr), decodeWord m (mkWord 0xD x) = .loadI x) ∧
  (∀ (x : Addr) (s : State), (s.mem.get x.toNat).toNat < 4096 → exec (.loadI x) s =
    .next { s with mar := zext16 x, mbr := s.mem.get x.toNat, ac := s.mem.get (s.mem.get x.toNat).toNat }) ∧
  (∀ (x : Addr) (s : State), 4096 ≤ (s.mem.get x.toNat).toNat →
    ∃ t, exec (.loadI x) s = .next t ∧ t.status = .faulted ⟨.dataAddress, some (s.mem.get x.toNat)⟩ ∧ t.out = s.out)

/-- R146: StoreI writes one word, at the address the pointer names, and its fault, by the spec's decision D4; that MAR
and MBR keep decode's values is its D9 (log entry 10). R202 keeps the statement from reading memory after the fault. -/
def Obligations.StoreIStoresThroughPointer : Prop :=
  (∀ m (x : Addr), decodeWord m (mkWord 0xE x) = .storeI x) ∧
  (∀ (x : Addr) (s : State), (s.mem.get x.toNat).toNat < 4096 → ∃ t, exec (.storeI x) s = .next t ∧
    t = { s with mar := zext16 x, mbr := s.mem.get x.toNat, mem := t.mem } ∧
    ∀ a, t.mem.get a = if a = (s.mem.get x.toNat).toNat then s.ac else s.mem.get a) ∧
  (∀ (x : Addr) (s : State), 4096 ≤ (s.mem.get x.toNat).toNat →
    ∃ t, exec (.storeI x) s = .next t ∧ t.status = .faulted ⟨.dataAddress, some (s.mem.get x.toNat)⟩ ∧ t.out = s.out)

/-- R106: opcode 0xF faults with IR as info; an opcode-0 word halts before execute, or reaches execute, as JnS, only
under the default mode and only where it is not 0x0000, and no other word is JnS; every other opcode goes to its own
instruction. Which words halt and which are JnS is the spec's decision D1 (log entry 1); that 0xF is the one
unrecognized opcode is R106's inference from R75. -/
def Obligations.IllegalOpcodeFaults : Prop :=
  (∀ m (n : Addr), decodeWord m (mkWord 0xF n) = .illegalOpcode n) ∧
  (∀ m w (n : Addr), decodeWord m w = .illegalOpcode n → opcodeField w = 0xF) ∧
  (∀ m w (x : Addr), decodeWord m w = .jnS x → m = .haltOnZeroWord ∧ w ≠ 0x0000 ∧ opcodeField w = 0x0) ∧
  (∀ m w, opcodeField w = 0x0 → decodeWord m w = .zeroHalt (addrField w) ∨
    (m = .haltOnZeroWord ∧ w ≠ 0x0000 ∧ decodeWord m w = .jnS (addrField w))) ∧
  (∀ m w, opcodeField w ≠ 0x0 → (decodeWord m w).opcode = opcodeField w) ∧
  (∀ (n : Addr) (s : State), ∃ t,
    exec (.illegalOpcode n) s = .next t ∧ t.status = .faulted ⟨.illegalOpcode, some s.ir⟩ ∧ t.out = s.out)

/-- R168: both operations are modulo 2^16, and the bit pattern is the same whether the operands are read as unsigned or
as two's-complement signed. -/
def Obligations.ArithmeticIsModular : Prop :=
  ∀ a b : Word,
    (addWord a b).toNat = (a.toNat + b.toNat) % 65536 ∧
    ((subWord a b).toNat : Int) = ((a.toNat : Int) - b.toNat + 65536) % 65536 ∧
    (s16 (addWord a b) - (s16 a + s16 b)) % 65536 = 0 ∧ (s16 (subWord a b) - (s16 a - s16 b)) % 65536 = 0 ∧
    -32768 ≤ s16 (addWord a b) ∧ s16 (addWord a b) < 32768 ∧ -32768 ≤ s16 (subWord a b) ∧ s16 (subWord a b) < 32768

/-- R124's corner case: exactly one of the three conditions holds for every AC. It rests on the two's-complement reading
of AC, the spec's general knowledge (R12), PRESUMED in log entry 8. -/
def Obligations.ExactlyOneConditionHolds : Prop :=
  ∀ ac : Word, ∃ c, skipTaken c ac = true ∧ ∀ d, skipTaken d ac = true → d = c

/-! ### Frames -/

/-- R22 to R28 and the write columns of R33: in a state that goes on or halts, an instruction has written MAR and MBR by
decode, and besides only its own destinations; every word of memory reads as before but the one that JnS and Store
write, at X, and StoreI, at M[X]. That MAR and MBR stay as decode left them, after stores and indirect forms too, is the
spec's decision D9 (log entry 10). -/
def Obligations.ExecWritesOnlyDestinations : Prop :=
  ∀ (i : Instr) (s t : State), exec i s = .next t → t.status.isFaulted = false →
    t.mar = zext16 i.lowBits ∧ t.mbr = s.mem.get i.lowBits.toNat ∧
    t.ir = s.ir ∧ t.inreg = s.inreg ∧ t.handoff = s.handoff ∧ t.reader = s.reader ∧ t.opcode0Mode = s.opcode0Mode ∧
    (writesAc i = false → t.ac = s.ac) ∧ (writesPc i = false → t.pc = s.pc) ∧
    (isOutput i = false → t.outreg = s.outreg ∧ t.out = s.out) ∧
    (haltsRun i = false → t.status = s.status) ∧
    (storesWord i = false → ∀ a, t.mem.get a = s.mem.get a) ∧
    (∀ x, i = .jnS x ∨ i = .store x → ∀ a, a ≠ x.toNat → t.mem.get a = s.mem.get a) ∧
    (∀ x, i = .storeI x → ∀ a, a ≠ (s.mem.get x.toNat).toNat → t.mem.get a = s.mem.get a)

/-- R52 and R33 over a whole step: a word of memory changes only where the executed JnS, Store or StoreI stores, at X,
X and M[X], and then to PC, AC and AC. Which opcode-0 words are JnS is the spec's decision D1 (log entry 1). -/
def Obligations.StepStoresOnlyAtItsAddress : Prop :=
  ∀ (s t : State), step s = .next t → t.status.isFaulted = false → ∀ a, t.mem.get a ≠ s.mem.get a →
    (opcodeField s.nextWord = 0x0 ∧ s.nextWord ≠ 0x0000 ∧ s.opcode0Mode = .haltOnZeroWord ∧ a = (addrField s.nextWord).toNat ∧
      t.mem.get a = s.pc + 1) ∨
    (opcodeField s.nextWord = 0x2 ∧ a = (addrField s.nextWord).toNat ∧ t.mem.get a = s.ac) ∨
    (opcodeField s.nextWord = 0xE ∧ a = s.nextOperand.toNat ∧ t.mem.get a = s.ac)

/-! ### The step -/

/-- R100 to R103: a ready state's step is its decoded instruction, run on the state that the reader's turn, the poll and
the fetch leave (`State.fetched`): IR holds the fetched word and PC is past it. That the poll comes before the fetch,
and so before execute, is the spec's decision D7 (log entry 10); the reader's turn before it is the model's schedule
(log entry 2), and that decode's writes open `exec` is log entry 7. Where the step faults, the equality rests on log
entry 6. -/
def Obligations.StepRunsDecodedInstruction : Prop :=
  ∀ s : State, s.Ready → step s = exec (decodeWord s.opcode0Mode (s.mem.get s.pc.toNat)) s.fetched ∧
    s.fetched.ir = s.mem.get s.pc.toNat ∧ s.fetched.pc = s.pc + 1 ∧ s.fetched.mem = s.mem ∧ s.fetched.ac = s.ac ∧
    s.fetched.inreg = s.readerTurn.handoff.getD s.inreg ∧ s.fetched.handoff = none

/-- The same for an instruction given as syntax: where PC points at the word of a well-formed instruction, the step runs
that instruction. It rests on D7 and on log entries 2, 6, 7 and 10, as StepRunsDecodedInstruction does. -/
def Obligations.StepRunsEncodedInstruction : Prop :=
  ∀ (s : State) (i : Instr), s.Ready → i.wellFormed s.opcode0Mode = true → s.mem.get s.pc.toNat = encode i →
    step s = exec i s.fetched

/-- R102, R56: a fetch with no memory behind PC ends the run with FETCH_ADDRESS and info PC, by the spec's decision
D3 (log entry 10); nothing is emitted. -/
def Obligations.FetchPastMemoryFaults : Prop :=
  ∀ s : State, s.status = .running → s.readerTurn.status = .running → 4096 ≤ s.pc.toNat →
    ∃ t, step s = .next t ∧ t.status = .faulted ⟨.fetchAddress, some s.pc⟩ ∧ t.out = s.out

/-- R108, R110: exactly the RUNNING states have a step; the core never waits and is never stuck. That nothing follows an
end is the spec's decision D21, that every RUNNING state has a step its D12. That halts and faults are next states is
DEDUCED (log entry 6), that a reader's fault before a step is that step log entry 11's. -/
def Obligations.OnlyRunningStatesStep : Prop :=
  ∀ s : State, (∃ t, step s = .next t) ↔ s.status = .running

/-- R201: the codes, and the exact causes: a step ends FAULTED with a record just when the record's cause holds.
Codes and infos are the spec's decision D11, the address faults D3 and D4, the reader's D19; the reader's moves come
from the schedule of log entry 2. -/
def Obligations.FaultCausesExact : Prop :=
  faultNumber .illegalOpcode = 1 ∧ faultNumber .badSkipCondition = 2 ∧ faultNumber .fetchAddress = 3 ∧
  faultNumber .dataAddress = 4 ∧ faultNumber .inputParse = 5 ∧
  ∀ (s t : State) (r : FaultRecord), step s = .next t → (t.status = .faulted r ↔
    (s.readerTurn.status ≠ .running ∧ r = ⟨.inputParse, none⟩) ∨
    (s.readerTurn.status = .running ∧ 4096 ≤ s.pc.toNat ∧ r = ⟨.fetchAddress, some s.pc⟩) ∨
    (s.Ready ∧ opcodeField s.nextWord = 0xF ∧ r = ⟨.illegalOpcode, some s.nextWord⟩) ∨
    (s.Ready ∧ opcodeField s.nextWord = 0x8 ∧ condBits (addrField s.nextWord) = 3 ∧
      r = ⟨.badSkipCondition, some s.nextWord⟩) ∨
    (s.Ready ∧ (opcodeField s.nextWord = 0xB ∨ opcodeField s.nextWord = 0xD ∨ opcodeField s.nextWord = 0xE) ∧
      4096 ≤ s.nextOperand.toNat ∧ r = ⟨.dataAddress, some s.nextOperand⟩))

/-- R204: a step ends HALTED just when it runs a halting word or Halt, and then, and only then, there is a dump. The
halting words are the spec's decision D1 (log entry 1), the dump its D20; `Ready` reads the schedule of log entry 2. -/
def Obligations.HaltCausesExact : Prop :=
  ∀ s t : State, step s = .next t →
    (t.status = .halted ↔ s.Ready ∧ (zeroHaltWord s.opcode0Mode s.nextWord = true ∨ opcodeField s.nextWord = 0x7)) ∧
    (t.dump.isSome = true ↔ t.status = .halted)

/-- R206: the order of events in a step: the fetch fault comes first, and under HALT_ON_ZERO_OPCODE every opcode-0 word
halts. The fetch fault is the spec's decision D3 (log entry 10), the mode its D1 (log entry 1). -/
def Obligations.FetchFaultBeforeHaltCheck : Prop :=
  (∀ s t : State, s.readerTurn.status = .running → 4096 ≤ s.pc.toNat → step s = .next t →
    t.status = .faulted ⟨.fetchAddress, some s.pc⟩) ∧
  (∀ s : State, s.Ready → s.opcode0Mode = .haltOnZeroOpcode → opcodeField s.nextWord = 0x0 →
    ∃ t, step s = .next t ∧ t.status = .halted ∧ t.ac = s.ac ∧ t.mem = s.mem)

/-- R32: OUT is append-only; a step appends AC when it runs Output and nothing otherwise, a faulting step included. That
OUT is state is the spec's decision D12; whether a state is ready to run Output is read from the schedule of log entry
2. -/
def Obligations.OutIsAppendOnly : Prop :=
  ∀ s t : State, step s = .next t →
    ((s.Ready ∧ opcodeField s.nextWord = 0x6) → t.out = s.out ++ [s.ac]) ∧
    (¬(s.Ready ∧ opcodeField s.nextWord = 0x6) → t.out = s.out)

/-- R23: where PC stands after a ready step that does not fault, by the opcode of the word that ran: Skipcond by its
condition, an opcode-0 word by whether it halted or ran as JnS. That PC is 16 bits, unmasked, and bounded by the fetch
fault is the spec's decisions D2, D3 and D5 (log entry 10), the signed reading of AC PRESUMED in log entry 8, the modes
D1 (log entry 1). -/
def Obligations.PcAfterStep : Prop :=
  ∀ s t : State, s.Ready → step s = .next t → t.status.isFaulted = false →
    (opcodeField s.nextWord ≠ 0xC → t.pc.toNat ≤ 0x1001) ∧
    (opcodeField s.nextWord = 0x9 → t.pc = zext16 (addrField s.nextWord)) ∧
    (opcodeField s.nextWord = 0xC → t.pc = s.nextOperand) ∧
    (∀ c : SkipCond, opcodeField s.nextWord = 0x8 → condBits (addrField s.nextWord) = c.bits →
      t.pc.toNat = if skipTaken c s.ac then s.pc.toNat + 2 else s.pc.toNat + 1) ∧
    (opcodeField s.nextWord = 0x0 → t.status = .running → t.pc = zext16 (addrField s.nextWord) + 1) ∧
    (opcodeField s.nextWord = 0x0 → t.status = .halted → t.pc.toNat = s.pc.toNat + 1) ∧
    (opcodeField s.nextWord ≠ 0x0 → opcodeField s.nextWord ≠ 0x8 → opcodeField s.nextWord ≠ 0x9 →
      opcodeField s.nextWord ≠ 0xC → t.pc.toNat = s.pc.toNat + 1)

/-- No step changes `OPCODE0_MODE` (R9: a parameter; log entry 1). -/
def Obligations.ModeIsConstant : Prop :=
  ∀ s t : State, step s = .next t → t.opcode0Mode = s.opcode0Mode

/-! ### Input and the reader -/

/-- R181: the poll latches a value in HANDOFF and empties HANDOFF, and with none INREG keeps its value; in every ready
step the decoded instruction executes on the polled INREG and an empty HANDOFF, and leaves them so. That the poll comes
first is the spec's decision D7 (log entry 10); against the fetch, which touches neither, the order does not show. The
values come from the schedule of log entry 2. -/
def Obligations.EveryStepPollsHandoff : Prop :=
  (∀ (s : State) (v : Word), s.handoff = some v → s.poll = { s with inreg := v, handoff := none }) ∧
  (∀ s : State, s.handoff = none → s.poll = s) ∧
  (∀ s : State, s.Ready → step s = exec (decodeWord s.opcode0Mode s.nextWord) s.fetched ∧
    s.fetched.inreg = s.readerTurn.poll.inreg ∧ s.fetched.handoff = none) ∧
  (∀ s t : State, s.Ready → step s = .next t → t.status.isFaulted = false →
    t.inreg = s.readerTurn.poll.inreg ∧ t.handoff = none)

/-- R180, R182: of the values delivered before a step only the last is seen, and an Input that runs in it reads that
value; with none delivered before this step, whatever the reader does later, it reads the value waiting in HANDOFF, and
with none waiting the old latch. That the poll comes before execute, so that Input sees such a value, is the spec's
decision D7 (log entry 10); the deliveries are the schedule of log entry 2. -/
def Obligations.InputReadsLastDelivery : Prop :=
  (∀ (s : State) (v : Word) (ms : List ReaderMove) (rest : List (List ReaderMove)),
    s.status = .running → s.reader = (ms ++ [.deliver v]) :: rest → ms.all ReaderMove.isDelivery = true →
    s.pc.toNat < 4096 → opcodeField s.nextWord = 0x5 →
    ∃ t, step s = .next t ∧ t.ac = v ∧ t.inreg = v ∧ t.handoff = none ∧ t.reader = rest ∧ t.status = .running) ∧
  (∀ s : State, s.status = .running → s.reader = [] ∨ s.reader.head? = some [] → s.pc.toNat < 4096 →
    opcodeField s.nextWord = 0x5 →
    ∃ t, step s = .next t ∧ t.ac = s.handoff.getD s.inreg ∧ t.inreg = s.handoff.getD s.inreg ∧ t.handoff = none ∧
      t.reader = s.reader.tail ∧ t.status = .running)

/-- R184: a malformed line, at any place among the reader's moves, ends the run with INPUT_PARSE; OUT is kept and there
is no dump. The move is the spec's decision D19; where it stands in a schedule is the model's (log entries 2 and 11). -/
def Obligations.ReaderFaultEndsRun : Prop :=
  ∀ (s : State) (ms ms' : List ReaderMove) (rest : List (List ReaderMove)),
    s.status = .running → s.reader = (ms ++ .parseFault :: ms') :: rest →
    ∃ t, step s = .next t ∧ t.status = .faulted ⟨.inputParse, none⟩ ∧ t.dump = none ∧
      t.runEnd = some (.faulted s.out .inputParse)

/-! ### Reset and image -/

/-- R34: the reset state. PC = 0x000 is the model's choice of the empty image's start address (log entry 3), the empty
schedule the model's choice too (log entry 2), the mode the spec's default. -/
def Obligations.ResetValues : Prop :=
  State.reset.pc = 0 ∧ State.reset.ir = 0 ∧ State.reset.ac = 0 ∧ State.reset.mar = 0 ∧ State.reset.mbr = 0 ∧
  State.reset.inreg = 0 ∧ State.reset.outreg = 0 ∧ (∀ a, State.reset.mem.get a = 0) ∧
  State.reset.status = .running ∧ State.reset.handoff = none ∧ State.reset.out = [] ∧
  State.reset.opcode0Mode = .haltOnZeroWord ∧
  loadImage .haltOnZeroWord [] 0 [] = some State.reset

/-- R230: the state in which a run of an image starts. The zeros of IR, AC, MAR, MBR and OUTREG are the spec's decision
D6 (log entry 4); mode and schedule are the model's fields (log entries 1 and 2). -/
def Obligations.LoadImageSeedsMemory : Prop :=
  ∀ (m : Opcode0Mode) (sched : List (List ReaderMove)) (start : Nat) (words : List Word) (s : State),
    loadImage m sched start words = some s →
      (∀ i, (h : i < words.length) → s.mem.get (start + i) = words[i]) ∧
      (∀ a, a < start ∨ start + words.length ≤ a → s.mem.get a = 0) ∧
      s.pc.toNat = start ∧ s.ir = 0 ∧ s.ac = 0 ∧ s.mar = 0 ∧ s.mbr = 0 ∧ s.outreg = 0 ∧ s.inreg = 0 ∧
      s.handoff = none ∧ s.out = [] ∧ s.status = .running ∧ s.opcode0Mode = m ∧ s.reader = sched

/-- R231: which images are refused, by the spec's decision D14, and that the empty image halts in its first step unless
the reader ends the run. -/
def Obligations.ImageRefusals : Prop :=
  (∀ (m : Opcode0Mode) (sched : List (List ReaderMove)) (start : Nat) (words : List Word),
    loadImage m sched start words = none ↔ 0x0FFF < start ∨ 4096 < start + words.length) ∧
  (∀ (m : Opcode0Mode) (sched : List (List ReaderMove)) (start : Nat) (s : State),
    loadImage m sched start [] = some s → s.readerTurn.status = .running →
    ∃ t, step s = .next t ∧ t.status = .halted)

/-! ### Invariants -/

/-- The invariant holds at reset; its canonical form of memory is log entry 5. -/
def Obligations.ResetMeetsInvariant : Prop := State.reset.Inv

/-- The invariant holds at the start of every image's run, under every mode and schedule; its canonical form of
memory is log entry 5. -/
def Obligations.LoadedImageMeetsInvariant : Prop :=
  ∀ (m : Opcode0Mode) (sched : List (List ReaderMove)) (start : Nat) (words : List Word) (s : State),
    loadImage m sched start words = some s → s.Inv

/-- Every step keeps the invariant: memory of words below 4096 (R50) in the canonical form of log entry 5, a DESIGN
CHOICE; MAR ≤ 0x0FFF as decode left it (R25) and PC bounded (R23), by the spec's decisions D9, D5 and D3 (log entry 10);
HALTED only on a halting word (R204; D1, log entry 1); and a fault record of R201 (D11), kept in STATUS by log entry 6,
by which a FAULTED state keeps a canonical memory too. -/
def Obligations.StepKeepsInvariant : Prop :=
  ∀ s t : State, s.Inv → step s = .next t → t.Inv

/-! ### Whole-machine rules -/

/-- R28: no instruction reads OUTREG: two states that differ only there step to states that differ only there, and not
even there once an Output ran. Where the step faults, the two states agree in registers and memory by log entry 6 (R202,
the spec's decision D23, leaves them undefined). -/
def Obligations.OutregIsNeverRead : Prop :=
  ∀ (s t : State) (v : Word), step s = .next t →
    ∃ t', step { s with outreg := v } = .next t' ∧ t' = { t with outreg := t'.outreg } ∧
      (t.status.isFaulted = false → opcodeField s.nextWord = 0x6 → t'.outreg = s.ac) ∧
      (t.status.isFaulted = false → opcodeField s.nextWord ≠ 0x6 → t'.outreg = v)

/-- R24 to R26: fetch and decode write IR, MAR and MBR before anything reads them, so what they held between two steps
changes nothing of a ready state's step. Where the step faults, it is registers and memory kept by log entry 6 that
agree (R202, the spec's decision D23, leaves them undefined). -/
def Obligations.OldIrMarMbrAreNeverRead : Prop :=
  ∀ (s : State) (ir mar mbr : Word), s.Ready → step { s with ir := ir, mar := mar, mbr := mbr } = step s

/-- R78, R212: the two modes agree on every step but one that runs a word 0x0001 to 0x0FFF. The modes are the spec's
decision D1 and the mode's place in State is log entry 1. Where the step faults, the states agree in registers and
memory by log entry 6 (R202, the spec's decision D23, leaves them undefined). -/
def Obligations.ModesDifferOnlyOnJnS : Prop :=
  ∀ (s t : State) (m : Opcode0Mode), s.nextWord = 0 ∨ opcodeField s.nextWord ≠ 0 → step s = .next t →
    step { s with opcode0Mode := m } = .next { t with opcode0Mode := m }

/-- R63: a Store to the next address changes the very next instruction. The silent reader is a schedule of log entry 2;
where the second step faults, the equality rests on log entry 6. -/
def Obligations.NextStepRunsStoredWord : Prop :=
  ∀ (s : State) (x : Addr), s.status = .running → s.reader = [] → s.pc.toNat < 4096 → s.nextWord = encode (.store x) →
    x.toNat = s.pc.toNat + 1 →
    ∃ t, step s = .next t ∧ t.nextWord = s.ac ∧ step t = exec (decodeWord s.opcode0Mode s.ac) t.fetched

/-- R121: JnS S and then JumpI S, as the body of the subroutine, return to the word after the JnS, with S + 1 in AC.
Which words are JnS is the spec's decision D1 (log entry 1), the silent reader a schedule of log entry 2. -/
def Obligations.JnSThenJumpIReturns : Prop :=
  ∀ (s : State) (x : Addr), s.status = .running → s.reader = [] → s.opcode0Mode = .haltOnZeroWord →
    s.pc.toNat < 4096 → x ≠ 0 → s.nextWord = encode (.jnS x) → x.toNat + 1 < 4096 →
    s.mem.get (x.toNat + 1) = encode (.jumpI x) →
    ∃ t u, step s = .next t ∧ step t = .next u ∧ u.status = .running ∧ u.pc = s.pc + 1 ∧ u.ac = zext16 x + 1 ∧
      u.mem.get x.toNat = s.pc + 1

/-- R109, R126: a Jump to its own address runs for ever, for every number of steps, and changes neither memory nor OUT.
The silent reader is a schedule of log entry 2. -/
def Obligations.JumpToSelfNeverEnds : Prop :=
  ∀ (s : State) (x : Addr) (k : Nat), s.status = .running → s.reader = [] → s.pc = zext16 x →
    s.nextWord = encode (.jump x) →
    ∃ t, Host.Core.run core k s = .next t ∧ t.status = .running ∧ t.pc = s.pc ∧ t.mem = s.mem ∧ t.out = s.out

/-- R212, R215, R202: what may be observed of an ended run: OUT and the seven registers after HALTED, OUT and the code
after FAULTED, nothing while RUNNING. The form of the observation is the spec's decision D12, the dump's seven registers
its D20. -/
def Obligations.EndOfRunObservation : Prop :=
  ∀ s : State,
    (s.status = .running → s.runEnd = none ∧ s.dump = none) ∧
    (s.status = .halted → s.dump = some ⟨s.pc, s.ir, s.ac, s.mar, s.mbr, s.inreg, s.outreg⟩ ∧
      s.runEnd = some (.halted s.out ⟨s.pc, s.ir, s.ac, s.mar, s.mbr, s.inreg, s.outreg⟩ s.mem)) ∧
    (∀ r, s.status = .faulted r → s.dump = none ∧ s.runEnd = some (.faulted s.out r.code))

/-! ### The toolchain -/

/-- R92: every word that pass 2 emits for a mnemonic holds the mnemonic's opcode and its resolved operand. -/
def Obligations.EmittedWordsDecodeBack : Prop :=
  ∀ (table : List (List Char × Nat)) (m : List Char) (ops : List (List Char)) (op : BitVec 4) (k : OperandKind)
    (w : Word), mnemonicRow m = some (op, k) → emitBody table m ops = .ok w →
    opcodeField w = op ∧ operandValue table k ops = .ok (addrField w).toNat

/-- R84: the operand of a mnemonic that takes an address is a decimal literal where it parses as one, and else the name
of a label, whatever its spelling; an unknown name is an UndefinedSymbolError. The radix is the spec's decision D15, the
bound on a literal its D24. That a label above 0xFFF is refused, and a signed numeral has no reading, are the model's
DESIGN CHOICES (log entry 14). -/
def Obligations.OperandLiteralBeforeLabel : Prop :=
  ∀ (table : List (List Char × Nat)) (m t : List Char) (op : BitVec 4), mnemonicRow m = some (op, .address) →
    (∀ v, parseDecimal t = some v → v ≤ 4095 → emitBody table m [t] = .ok (mkWord op (BitVec.ofNat 12 v))) ∧
    (∀ v, parseDecimal t = some v → 4095 < v → emitBody table m [t] = .error .outOfRange) ∧
    (∀ a, parseDecimal t = none → signedNumeral t = false → lookupSymbol t table = some a → a ≤ 0xFFF →
      emitBody table m [t] = .ok (mkWord op (BitVec.ofNat 12 a))) ∧
    (∀ a, parseDecimal t = none → signedNumeral t = false → lookupSymbol t table = some a → 0xFFF < a →
      emitBody table m [t] = .error .outOfRange) ∧
    (parseDecimal t = none → signedNumeral t = false → lookupSymbol t table = none →
      emitBody table m [t] = .error (.undefinedSymbol t)) ∧
    (signedNumeral t = true → emitBody table m [t] = .error .unspecified)

/-- R91, R231: an image the assembler makes is never refused by the core. The refusals on both sides are the spec's
decision D14 (the assembler's also D24); text with no reading makes no image, by log entries 9 and 14. -/
def Obligations.AssembledImagesLoad : Prop :=
  ∀ (source : List Char) (img : Image) (m : Opcode0Mode) (sched : List (List ReaderMove)),
    assemble source = .ok img → ∃ s, loadImage m sched img.start img.words = some s
end

