-- ==== Sys2Proof/Laws/Assembler.lean ====
section
/-!
SUPPORT. One lemma per shared operation of the assembler that says what it can do: a bounded number, a signed numeral, an
operand, a mnemonic's word.
-/

namespace Sys2Proof.Machine

/-- What a bounded number is: the number, within its bound. -/
theorem bounded_eq_ok {max v w : Nat} : bounded max v = .ok w ↔ v = w ∧ v ≤ max := by
  unfold bounded
  split <;> simp [*]

/-- A sign is no decimal digit, so a signed numeral does not parse as a literal. -/
theorem parseDecimal_of_signedNumeral {t : List Char} (h : signedNumeral t = true) : parseDecimal t = none := by
  cases t with
  | nil => cases h
  | cons c ds =>
    simp only [signedNumeral, Bool.and_eq_true, Bool.or_eq_true, beq_iff_eq] at h
    rcases h.1 with rfl | rfl <;> simp [parseDecimal, digitsFrom, decimalDigit]

/-- A resolved operand is a literal or a bound label's address, and has twelve bits (R83, R84). -/
theorem resolveOperand_eq_ok {table : List (List Char × Nat)} {t : List Char} {v : Nat}
    (h : resolveOperand table t = .ok v) :
    v ≤ 0xFFF ∧ (parseDecimal t = some v ∨ parseDecimal t = none ∧ lookupSymbol t table = some v) := by
  unfold resolveOperand at h
  split at h
  · obtain ⟨rfl, hb⟩ := bounded_eq_ok.mp h
    exact ⟨hb, .inl ‹_›⟩
  · split at h
    · cases h
    · split at h
      · obtain ⟨rfl, hb⟩ := bounded_eq_ok.mp h
        exact ⟨hb, .inr ⟨‹_›, ‹_›⟩⟩
      · cases h

/-- Every operand value has twelve bits, whatever the mnemonic takes. -/
theorem operandValue_le {table : List (List Char × Nat)} {k : OperandKind} {ops : List (List Char)} {v : Nat}
    (h : operandValue table k ops = .ok v) : v ≤ 0xFFF := by
  unfold operandValue at h
  split at h <;> try cases h
  · omega
  · exact (resolveOperand_eq_ok h).1
  · split at h
    · obtain ⟨rfl, hb⟩ := bounded_eq_ok.mp h
      exact hb
    · cases h

/-- The word of a mnemonic is its opcode over its operand (R83); the directives are no mnemonics. -/
theorem emitBody_of_mnemonicRow {m : List Char} {op : BitVec 4} {k : OperandKind} (table : List (List Char × Nat))
    (ops : List (List Char)) (h : mnemonicRow m = some (op, k)) :
    emitBody table m ops = (operandValue table k ops).map fun v => mkWord op (BitVec.ofNat 12 v) := by
  unfold emitBody
  split
  · simp [mnemonicRow] at h
  · simp [mnemonicRow] at h
  · simp [mnemonicRow] at h
  · rw [h]

end Sys2Proof.Machine
end

