-- ==== Sys2Proof/Laws/Decode.lean ====
section
/-!
SUPPORT. The fields of a word and the word put together again, and the masks of R7.
-/

namespace Sys2Proof

@[simp] theorem opcodeField_mkWord (op : BitVec 4) (x : Addr) : opcodeField (mkWord op x) = op := by
  apply BitVec.eq_of_getLsbD_eq
  intro i hi
  simp only [opcodeField, mkWord, BitVec.getLsbD_extractLsb', BitVec.getLsbD_append, hi, decide_true, Bool.true_and]
  rw [if_neg (by omega), Nat.add_sub_cancel_left]

@[simp] theorem addrField_mkWord (op : BitVec 4) (x : Addr) : addrField (mkWord op x) = x := by
  apply BitVec.eq_of_getLsbD_eq
  intro i hi
  simp only [addrField, mkWord, BitVec.getLsbD_extractLsb', BitVec.getLsbD_append, hi, decide_true, Bool.true_and,
    Nat.zero_add, if_true]

@[simp] theorem mkWord_fields (w : Word) : mkWord (opcodeField w) (addrField w) = w := by
  apply BitVec.eq_of_getLsbD_eq
  intro i hi
  simp only [mkWord, opcodeField, addrField, BitVec.getLsbD_append, BitVec.getLsbD_extractLsb']
  by_cases h : i < 12
  · simp [h]
  · simp [h, show i - 12 < 4 by omega, show 12 + (i - 12) = i by omega]

@[simp] theorem condBits_append (c : BitVec 2) (n : BitVec 10) : condBits (c ++ n) = c := by
  apply BitVec.eq_of_getLsbD_eq
  intro i hi
  simp only [condBits, BitVec.getLsbD_extractLsb', BitVec.getLsbD_append, hi, decide_true, Bool.true_and]
  rw [if_neg (by omega), Nat.add_sub_cancel_left]

@[simp] theorem skipIgnored_append (c : BitVec 2) (n : BitVec 10) : skipIgnored (c ++ n) = n := by
  apply BitVec.eq_of_getLsbD_eq
  intro i hi
  simp only [skipIgnored, BitVec.getLsbD_extractLsb', BitVec.getLsbD_append, hi, decide_true, Bool.true_and,
    Nat.zero_add, if_true]

@[simp] theorem append_skipFields (x : Addr) : (condBits x ++ skipIgnored x : BitVec 12) = x := by
  apply BitVec.eq_of_getLsbD_eq
  intro i hi
  simp only [condBits, skipIgnored, BitVec.getLsbD_append, BitVec.getLsbD_extractLsb']
  by_cases h : i < 10
  · simp [h]
  · simp [h, show i - 10 < 2 by omega, show 10 + (i - 10) = i by omega]

/-- ADDRESS_MASK selects the address field (R7). -/
theorem addrField_mask (w : Word) : (addrField w).setWidth 16 = w &&& Config.addressMask := by
  apply BitVec.eq_of_toNat_eq
  have h : w.toNat &&& 4095 = w.toNat % 4096 := Nat.and_two_pow_sub_one_eq_mod w.toNat 12
  simp only [addrField, Config.addressMask, BitVec.toNat_setWidth, BitVec.extractLsb'_toNat, BitVec.toNat_and,
    Nat.shiftRight_zero]
  rw [show (BitVec.toNat (4095 : Word)) = 4095 from rfl, h]
  omega

/-- OPCODE_MASK selects the opcode field (R7). -/
theorem opcodeField_mask (w : Word) : mkWord (opcodeField w) 0 = w &&& Config.opcodeMask := by
  apply BitVec.eq_of_getLsbD_eq
  intro i hi
  simp only [mkWord, opcodeField, Config.opcodeMask, BitVec.getLsbD_append, BitVec.getLsbD_extractLsb', BitVec.getLsbD_and]
  interval_cases i <;> simp

/-- CONDITION_MASK selects the Skipcond condition (R7, R124). -/
theorem condBits_mask (w : Word) : mkWord 0 (condBits (addrField w) ++ (0 : BitVec 10)) = w &&& Config.conditionMask := by
  apply BitVec.eq_of_getLsbD_eq
  intro i hi
  simp only [mkWord, condBits, addrField, Config.conditionMask, BitVec.getLsbD_append, BitVec.getLsbD_extractLsb',
    BitVec.getLsbD_and]
  interval_cases i <;> simp

/-- A word is the zero word when both its fields are zero. -/
theorem eq_zero_iff_fields (w : Word) : w = 0 ↔ opcodeField w = 0 ∧ addrField w = 0 := by
  constructor
  · rintro rfl; exact ⟨rfl, rfl⟩
  · rintro ⟨ho, ha⟩; rw [← mkWord_fields w, ho, ha]; rfl

end Sys2Proof
end

