-- ==== Sys2Proof/Laws/State.lean ====
section
/-!
SUPPORT. One lemma per field per named update of the state, true by rfl, so that no proof unfolds a record update.
-/

namespace Sys2Proof.Machine

variable (s : State)

/-! ### memWrite -/

@[simp] theorem State.memWrite_pc (a v : Word) : (s.memWrite a v).pc = s.pc := rfl
@[simp] theorem State.memWrite_ir (a v : Word) : (s.memWrite a v).ir = s.ir := rfl
@[simp] theorem State.memWrite_ac (a v : Word) : (s.memWrite a v).ac = s.ac := rfl
@[simp] theorem State.memWrite_mar (a v : Word) : (s.memWrite a v).mar = s.mar := rfl
@[simp] theorem State.memWrite_mbr (a v : Word) : (s.memWrite a v).mbr = s.mbr := rfl
@[simp] theorem State.memWrite_inreg (a v : Word) : (s.memWrite a v).inreg = s.inreg := rfl
@[simp] theorem State.memWrite_outreg (a v : Word) : (s.memWrite a v).outreg = s.outreg := rfl
@[simp] theorem State.memWrite_mem (a v : Word) : (s.memWrite a v).mem = s.mem.set a.toNat v := rfl
@[simp] theorem State.memWrite_status (a v : Word) : (s.memWrite a v).status = s.status := rfl
@[simp] theorem State.memWrite_handoff (a v : Word) : (s.memWrite a v).handoff = s.handoff := rfl
@[simp] theorem State.memWrite_out (a v : Word) : (s.memWrite a v).out = s.out := rfl
@[simp] theorem State.memWrite_opcode0Mode (a v : Word) : (s.memWrite a v).opcode0Mode = s.opcode0Mode := rfl
@[simp] theorem State.memWrite_reader (a v : Word) : (s.memWrite a v).reader = s.reader := rfl

/-! ### setAc -/

@[simp] theorem State.setAc_pc (v : Word) : (s.setAc v).pc = s.pc := rfl
@[simp] theorem State.setAc_ir (v : Word) : (s.setAc v).ir = s.ir := rfl
@[simp] theorem State.setAc_ac (v : Word) : (s.setAc v).ac = v := rfl
@[simp] theorem State.setAc_mar (v : Word) : (s.setAc v).mar = s.mar := rfl
@[simp] theorem State.setAc_mbr (v : Word) : (s.setAc v).mbr = s.mbr := rfl
@[simp] theorem State.setAc_inreg (v : Word) : (s.setAc v).inreg = s.inreg := rfl
@[simp] theorem State.setAc_outreg (v : Word) : (s.setAc v).outreg = s.outreg := rfl
@[simp] theorem State.setAc_mem (v : Word) : (s.setAc v).mem = s.mem := rfl
@[simp] theorem State.setAc_status (v : Word) : (s.setAc v).status = s.status := rfl
@[simp] theorem State.setAc_handoff (v : Word) : (s.setAc v).handoff = s.handoff := rfl
@[simp] theorem State.setAc_out (v : Word) : (s.setAc v).out = s.out := rfl
@[simp] theorem State.setAc_opcode0Mode (v : Word) : (s.setAc v).opcode0Mode = s.opcode0Mode := rfl
@[simp] theorem State.setAc_reader (v : Word) : (s.setAc v).reader = s.reader := rfl

/-! ### setPc -/

@[simp] theorem State.setPc_pc (v : Word) : (s.setPc v).pc = v := rfl
@[simp] theorem State.setPc_ir (v : Word) : (s.setPc v).ir = s.ir := rfl
@[simp] theorem State.setPc_ac (v : Word) : (s.setPc v).ac = s.ac := rfl
@[simp] theorem State.setPc_mar (v : Word) : (s.setPc v).mar = s.mar := rfl
@[simp] theorem State.setPc_mbr (v : Word) : (s.setPc v).mbr = s.mbr := rfl
@[simp] theorem State.setPc_inreg (v : Word) : (s.setPc v).inreg = s.inreg := rfl
@[simp] theorem State.setPc_outreg (v : Word) : (s.setPc v).outreg = s.outreg := rfl
@[simp] theorem State.setPc_mem (v : Word) : (s.setPc v).mem = s.mem := rfl
@[simp] theorem State.setPc_status (v : Word) : (s.setPc v).status = s.status := rfl
@[simp] theorem State.setPc_handoff (v : Word) : (s.setPc v).handoff = s.handoff := rfl
@[simp] theorem State.setPc_out (v : Word) : (s.setPc v).out = s.out := rfl
@[simp] theorem State.setPc_opcode0Mode (v : Word) : (s.setPc v).opcode0Mode = s.opcode0Mode := rfl
@[simp] theorem State.setPc_reader (v : Word) : (s.setPc v).reader = s.reader := rfl

/-! ### raise -/

@[simp] theorem State.raise_pc (c : FaultCode) (i : Option Word) : (s.raise c i).pc = s.pc := rfl
@[simp] theorem State.raise_ir (c : FaultCode) (i : Option Word) : (s.raise c i).ir = s.ir := rfl
@[simp] theorem State.raise_ac (c : FaultCode) (i : Option Word) : (s.raise c i).ac = s.ac := rfl
@[simp] theorem State.raise_mar (c : FaultCode) (i : Option Word) : (s.raise c i).mar = s.mar := rfl
@[simp] theorem State.raise_mbr (c : FaultCode) (i : Option Word) : (s.raise c i).mbr = s.mbr := rfl
@[simp] theorem State.raise_inreg (c : FaultCode) (i : Option Word) : (s.raise c i).inreg = s.inreg := rfl
@[simp] theorem State.raise_outreg (c : FaultCode) (i : Option Word) : (s.raise c i).outreg = s.outreg := rfl
@[simp] theorem State.raise_mem (c : FaultCode) (i : Option Word) : (s.raise c i).mem = s.mem := rfl
@[simp] theorem State.raise_status (c : FaultCode) (i : Option Word) : (s.raise c i).status = .faulted ⟨c, i⟩ := rfl
@[simp] theorem State.raise_handoff (c : FaultCode) (i : Option Word) : (s.raise c i).handoff = s.handoff := rfl
@[simp] theorem State.raise_out (c : FaultCode) (i : Option Word) : (s.raise c i).out = s.out := rfl
@[simp] theorem State.raise_opcode0Mode (c : FaultCode) (i : Option Word) : (s.raise c i).opcode0Mode = s.opcode0Mode := rfl
@[simp] theorem State.raise_reader (c : FaultCode) (i : Option Word) : (s.raise c i).reader = s.reader := rfl

/-! ### halt -/

@[simp] theorem State.halt_pc : (s.halt).pc = s.pc := rfl
@[simp] theorem State.halt_ir : (s.halt).ir = s.ir := rfl
@[simp] theorem State.halt_ac : (s.halt).ac = s.ac := rfl
@[simp] theorem State.halt_mar : (s.halt).mar = s.mar := rfl
@[simp] theorem State.halt_mbr : (s.halt).mbr = s.mbr := rfl
@[simp] theorem State.halt_inreg : (s.halt).inreg = s.inreg := rfl
@[simp] theorem State.halt_outreg : (s.halt).outreg = s.outreg := rfl
@[simp] theorem State.halt_mem : (s.halt).mem = s.mem := rfl
@[simp] theorem State.halt_status : (s.halt).status = .halted := rfl
@[simp] theorem State.halt_handoff : (s.halt).handoff = s.handoff := rfl
@[simp] theorem State.halt_out : (s.halt).out = s.out := rfl
@[simp] theorem State.halt_opcode0Mode : (s.halt).opcode0Mode = s.opcode0Mode := rfl
@[simp] theorem State.halt_reader : (s.halt).reader = s.reader := rfl

/-! ### output -/

@[simp] theorem State.output_pc (v : Word) : (s.output v).pc = s.pc := rfl
@[simp] theorem State.output_ir (v : Word) : (s.output v).ir = s.ir := rfl
@[simp] theorem State.output_ac (v : Word) : (s.output v).ac = s.ac := rfl
@[simp] theorem State.output_mar (v : Word) : (s.output v).mar = s.mar := rfl
@[simp] theorem State.output_mbr (v : Word) : (s.output v).mbr = s.mbr := rfl
@[simp] theorem State.output_inreg (v : Word) : (s.output v).inreg = s.inreg := rfl
@[simp] theorem State.output_outreg (v : Word) : (s.output v).outreg = v := rfl
@[simp] theorem State.output_mem (v : Word) : (s.output v).mem = s.mem := rfl
@[simp] theorem State.output_status (v : Word) : (s.output v).status = s.status := rfl
@[simp] theorem State.output_handoff (v : Word) : (s.output v).handoff = s.handoff := rfl
@[simp] theorem State.output_out (v : Word) : (s.output v).out = s.out ++ [v] := rfl
@[simp] theorem State.output_opcode0Mode (v : Word) : (s.output v).opcode0Mode = s.opcode0Mode := rfl
@[simp] theorem State.output_reader (v : Word) : (s.output v).reader = s.reader := rfl

/-! ### deliver -/

@[simp] theorem State.deliver_pc (v : Word) : (s.deliver v).pc = s.pc := rfl
@[simp] theorem State.deliver_ir (v : Word) : (s.deliver v).ir = s.ir := rfl
@[simp] theorem State.deliver_ac (v : Word) : (s.deliver v).ac = s.ac := rfl
@[simp] theorem State.deliver_mar (v : Word) : (s.deliver v).mar = s.mar := rfl
@[simp] theorem State.deliver_mbr (v : Word) : (s.deliver v).mbr = s.mbr := rfl
@[simp] theorem State.deliver_inreg (v : Word) : (s.deliver v).inreg = s.inreg := rfl
@[simp] theorem State.deliver_outreg (v : Word) : (s.deliver v).outreg = s.outreg := rfl
@[simp] theorem State.deliver_mem (v : Word) : (s.deliver v).mem = s.mem := rfl
@[simp] theorem State.deliver_status (v : Word) : (s.deliver v).status = s.status := rfl
@[simp] theorem State.deliver_handoff (v : Word) : (s.deliver v).handoff = some v := rfl
@[simp] theorem State.deliver_out (v : Word) : (s.deliver v).out = s.out := rfl
@[simp] theorem State.deliver_opcode0Mode (v : Word) : (s.deliver v).opcode0Mode = s.opcode0Mode := rfl
@[simp] theorem State.deliver_reader (v : Word) : (s.deliver v).reader = s.reader := rfl

/-! ### poll -/

@[simp] theorem State.poll_pc : (s.poll).pc = s.pc := rfl
@[simp] theorem State.poll_ir : (s.poll).ir = s.ir := rfl
@[simp] theorem State.poll_ac : (s.poll).ac = s.ac := rfl
@[simp] theorem State.poll_mar : (s.poll).mar = s.mar := rfl
@[simp] theorem State.poll_mbr : (s.poll).mbr = s.mbr := rfl
@[simp] theorem State.poll_inreg : (s.poll).inreg = s.handoff.getD s.inreg := rfl
@[simp] theorem State.poll_outreg : (s.poll).outreg = s.outreg := rfl
@[simp] theorem State.poll_mem : (s.poll).mem = s.mem := rfl
@[simp] theorem State.poll_status : (s.poll).status = s.status := rfl
@[simp] theorem State.poll_handoff : (s.poll).handoff = none := rfl
@[simp] theorem State.poll_out : (s.poll).out = s.out := rfl
@[simp] theorem State.poll_opcode0Mode : (s.poll).opcode0Mode = s.opcode0Mode := rfl
@[simp] theorem State.poll_reader : (s.poll).reader = s.reader := rfl

/-! ### decodeOperand -/

@[simp] theorem State.decodeOperand_pc (x : Addr) : (s.decodeOperand x).pc = s.pc := rfl
@[simp] theorem State.decodeOperand_ir (x : Addr) : (s.decodeOperand x).ir = s.ir := rfl
@[simp] theorem State.decodeOperand_ac (x : Addr) : (s.decodeOperand x).ac = s.ac := rfl
@[simp] theorem State.decodeOperand_mar (x : Addr) : (s.decodeOperand x).mar = zext16 x := rfl
@[simp] theorem State.decodeOperand_mbr (x : Addr) : (s.decodeOperand x).mbr = s.mem.get (zext16 x).toNat := rfl
@[simp] theorem State.decodeOperand_inreg (x : Addr) : (s.decodeOperand x).inreg = s.inreg := rfl
@[simp] theorem State.decodeOperand_outreg (x : Addr) : (s.decodeOperand x).outreg = s.outreg := rfl
@[simp] theorem State.decodeOperand_mem (x : Addr) : (s.decodeOperand x).mem = s.mem := rfl
@[simp] theorem State.decodeOperand_status (x : Addr) : (s.decodeOperand x).status = s.status := rfl
@[simp] theorem State.decodeOperand_handoff (x : Addr) : (s.decodeOperand x).handoff = s.handoff := rfl
@[simp] theorem State.decodeOperand_out (x : Addr) : (s.decodeOperand x).out = s.out := rfl
@[simp] theorem State.decodeOperand_opcode0Mode (x : Addr) : (s.decodeOperand x).opcode0Mode = s.opcode0Mode := rfl
@[simp] theorem State.decodeOperand_reader (x : Addr) : (s.decodeOperand x).reader = s.reader := rfl

end Sys2Proof.Machine
end

