-- ==== Sys2Proof/Laws/Memory.lean ====
section
/-!
SUPPORT. The laws of memory: a read after a write (R60), and the canonical form that every operation keeps.
-/

namespace Sys2Proof.Machine

@[simp] theorem Memory.get_nil (a : Nat) : Memory.get [] a = 0 := rfl

theorem Memory.get_erase (m : Memory) (a b : Nat) :
    (m.erase a).get b = if b = a then 0 else m.get b := by
  induction m with
  | nil => simp [Memory.erase]
  | cons e m ih =>
    obtain ⟨k, v⟩ := e
    simp only [Memory.erase, Memory.get]
    split_ifs with hk hb hkb hb hkb <;> simp_all [Memory.get]

theorem Memory.get_insert (m : Memory) (a b : Nat) (v : Word) (hm : ∀ e ∈ m, e.1 ≠ a) :
    (m.insert a v).get b = if b = a then v else m.get b := by
  induction m with
  | nil => simp only [Memory.insert, Memory.get, eq_comm]
  | cons e m ih =>
    obtain ⟨k, w⟩ := e
    have hk : k ≠ a := hm (k, w) (by simp)
    have ih := ih fun e he => hm e (by simp [he])
    simp only [Memory.insert]
    split
    · simp only [Memory.get, eq_comm]
    · simp only [Memory.get, ih]
      split_ifs <;> simp_all

theorem Memory.not_mem_erase (m : Memory) (a : Nat) : ∀ e ∈ m.erase a, e.1 ≠ a := by
  induction m with
  | nil => simp [Memory.erase]
  | cons e m ih =>
    obtain ⟨k, v⟩ := e
    simp only [Memory.erase]
    split_ifs with hk
    · exact ih
    · simpa [hk] using ih

/-- Read after write (R60), on every list, canonical or not. -/
@[simp] theorem Memory.get_set (m : Memory) (a b : Nat) (v : Word) :
    (m.set a v).get b = if b = a then v else m.get b := by
  unfold Memory.set
  split_ifs with hv hb hb
  · simp [Memory.get_erase, hb, hv]
  · simp [Memory.get_erase, hb]
  · rw [Memory.get_insert _ _ _ _ (m.not_mem_erase a)]; simp [hb]
  · rw [Memory.get_insert _ _ _ _ (m.not_mem_erase a)]; simp [hb, Memory.get_erase]

theorem Memory.wfFrom_mono {lo lo' : Nat} {m : Memory} (h : Memory.wfFrom lo m = true) (hl : lo' ≤ lo) :
    Memory.wfFrom lo' m = true := by
  cases m with
  | nil => rfl
  | cons e m =>
    obtain ⟨k, v⟩ := e
    simp only [Memory.wfFrom, Bool.and_eq_true, decide_eq_true_eq] at h ⊢
    exact ⟨⟨⟨by omega, h.1.1.2⟩, h.1.2⟩, h.2⟩

theorem Memory.wfFrom_erase {lo : Nat} {m : Memory} (a : Nat) (h : Memory.wfFrom lo m = true) :
    Memory.wfFrom lo (m.erase a) = true := by
  induction m generalizing lo with
  | nil => rfl
  | cons e m ih =>
    obtain ⟨k, v⟩ := e
    simp only [Memory.wfFrom, Bool.and_eq_true, decide_eq_true_eq] at h
    simp only [Memory.erase]
    split_ifs with hk
    · exact Memory.wfFrom_mono (ih h.2) (by omega)
    · simp only [Memory.wfFrom, Bool.and_eq_true, decide_eq_true_eq]
      exact ⟨h.1, ih h.2⟩

theorem Memory.wfFrom_insert {lo a : Nat} {m : Memory} {v : Word} (h : Memory.wfFrom lo m = true) (hl : lo ≤ a)
    (ha : a < Config.memWords) (hv : v ≠ 0) (hm : ∀ e ∈ m, e.1 ≠ a) : Memory.wfFrom lo (m.insert a v) = true := by
  induction m generalizing lo with
  | nil =>
    simp only [Memory.insert, Memory.wfFrom, Bool.and_eq_true, decide_eq_true_eq]
    exact ⟨⟨⟨hl, ha⟩, hv⟩, trivial⟩
  | cons e m ih =>
    obtain ⟨k, w⟩ := e
    have hk : k ≠ a := hm (k, w) (by simp)
    simp only [Memory.wfFrom, Bool.and_eq_true, decide_eq_true_eq] at h
    simp only [Memory.insert]
    split_ifs with hak
    · simp only [Memory.wfFrom, Bool.and_eq_true, decide_eq_true_eq]
      exact ⟨⟨⟨hl, ha⟩, hv⟩, ⟨⟨⟨by omega, h.1.1.2⟩, h.1.2⟩, h.2⟩⟩
    · simp only [Memory.wfFrom, Bool.and_eq_true, decide_eq_true_eq]
      exact ⟨h.1, ih h.2 (by omega) fun e he => hm e (by simp [he])⟩

/-- Every write to an address that exists keeps the canonical form. -/
theorem Memory.wf_set {m : Memory} {a : Nat} (v : Word) (h : m.wf = true) (ha : a < Config.memWords) :
    (m.set a v).wf = true := by
  unfold Memory.set Memory.wf at *
  split_ifs with hv
  · exact Memory.wfFrom_erase a h
  · exact Memory.wfFrom_insert (Memory.wfFrom_erase a h) (by omega) ha hv (m.not_mem_erase a)

theorem Memory.get_of_wfFrom_lt {lo a : Nat} {m : Memory} (h : Memory.wfFrom lo m = true) (ha : a < lo) : m.get a = 0 := by
  induction m generalizing lo with
  | nil => rfl
  | cons e m ih =>
    obtain ⟨k, v⟩ := e
    simp only [Memory.wfFrom, Bool.and_eq_true, decide_eq_true_eq] at h
    have : k ≠ a := by omega
    simp [Memory.get, this, ih h.2 (by omega)]

/-- A canonical memory lists nothing at or above 4096 (R56). -/
theorem Memory.get_of_wf_of_le {lo a : Nat} {m : Memory} (h : Memory.wfFrom lo m = true) (ha : Config.memWords ≤ a) :
    m.get a = 0 := by
  induction m generalizing lo with
  | nil => rfl
  | cons e m ih =>
    obtain ⟨k, v⟩ := e
    simp only [Memory.wfFrom, Bool.and_eq_true, decide_eq_true_eq] at h
    have : k ≠ a := by omega
    simp [Memory.get, this, ih h.2]

theorem Memory.eq_of_get_eq_from {lo : Nat} {m n : Memory} (hm : Memory.wfFrom lo m = true)
    (hn : Memory.wfFrom lo n = true) (h : ∀ a, m.get a = n.get a) : m = n := by
  induction m generalizing lo n with
  | nil =>
    cases n with
    | nil => rfl
    | cons e n =>
      obtain ⟨k, v⟩ := e
      simp only [Memory.wfFrom, Bool.and_eq_true, decide_eq_true_eq] at hn
      have := h k
      simp [Memory.get] at this
      exact absurd this.symm hn.1.2
  | cons e m ih =>
    obtain ⟨k, v⟩ := e
    simp only [Memory.wfFrom, Bool.and_eq_true, decide_eq_true_eq] at hm
    cases n with
    | nil =>
      have := h k
      simp [Memory.get] at this
      exact absurd this hm.1.2
    | cons e' n =>
      obtain ⟨l, w⟩ := e'
      simp only [Memory.wfFrom, Bool.and_eq_true, decide_eq_true_eq] at hn
      have hkl : k = l := by
        rcases lt_trichotomy k l with hlt | heq | hgt
        · have := h k
          simp only [Memory.get, if_true, if_neg (show l ≠ k by omega)] at this
          rw [Memory.get_of_wfFrom_lt hn.2 (by omega)] at this
          exact absurd this hm.1.2
        · exact heq
        · have := h l
          simp only [Memory.get, if_true, if_neg (show k ≠ l by omega)] at this
          rw [Memory.get_of_wfFrom_lt hm.2 (by omega)] at this
          exact absurd this.symm hn.1.2
      subst hkl
      have hvw : v = w := by simpa [Memory.get] using h k
      subst hvw
      have htail : m = n := ih hm.2 hn.2 fun a => by
        by_cases ha : k = a
        · subst ha
          rw [Memory.get_of_wfFrom_lt hm.2 (by omega), Memory.get_of_wfFrom_lt hn.2 (by omega)]
        · simpa [Memory.get, ha] using h a
      rw [htail]

/-- Equal canonical memories are equal data. -/
theorem Memory.eq_of_get_eq {m n : Memory} (hm : m.wf = true) (hn : n.wf = true) (h : ∀ a, m.get a = n.get a) : m = n :=
  Memory.eq_of_get_eq_from hm hn h

end Sys2Proof.Machine
end

