-- ==== Sys2Proof/Laws/Ops.lean ====
section
/-!
SUPPORT. One lemma per shared operation that says everything it can do: memory access, the indirect operand, the
reader's turn, the fetch, and the step.
-/

namespace Sys2Proof.Machine

/-! ### Addresses and memory access -/

@[simp] theorem zext16_toNat (x : Addr) : (zext16 x).toNat = x.toNat := by
  simp only [zext16, BitVec.toNat_setWidth]
  omega

/-- An address field always names a word memory has (R104). -/
theorem zext16_lt (x : Addr) : (zext16 x).toNat < Config.memWords := by
  rw [zext16_toNat]
  exact x.isLt

theorem State.memRead_of_lt {s : State} {a : Word} (h : a.toNat < Config.memWords) :
    s.memRead a = some (s.mem.get a.toNat) := if_pos h

theorem State.memRead_of_le {s : State} {a : Word} (h : Config.memWords ≤ a.toNat) : s.memRead a = none :=
  if_neg (by omega)

/-- A write to an address that exists keeps memory canonical. -/
theorem State.memWrite_wf {s : State} {a : Word} (v : Word) (h : s.mem.wf = true) (ha : a.toNat < Config.memWords) :
    (s.memWrite a v).mem.wf = true := Memory.wf_set v h ha

theorem State.reset_mem_wf : State.reset.mem.wf = true := rfl

/-- Storing an image that ends inside memory keeps memory canonical. -/
theorem Memory.wf_loadWords {m : Memory} {a : Nat} {ws : List Word} (h : m.wf = true)
    (hw : a + ws.length ≤ Config.memWords) : (m.loadWords a ws).wf = true := by
  induction ws generalizing m a with
  | nil => exact h
  | cons w ws ih =>
    rw [List.length_cons] at hw
    exact ih (Memory.wf_set w h (by omega)) (by omega)

/-- What a stored image reads as: its words from `a` on, and the old memory elsewhere. -/
theorem Memory.get_loadWords (m : Memory) (a b : Nat) (ws : List Word) :
    (m.loadWords a ws).get b = if h : a ≤ b ∧ b < a + ws.length then ws[b - a]'(by omega) else m.get b := by
  induction ws generalizing m a with
  | nil => simp [Memory.loadWords]
  | cons w ws ih =>
    rw [Memory.loadWords, ih, Memory.get_set]
    simp only [List.length_cons]
    by_cases hb : b = a
    · subst hb; simp
    · by_cases h2 : a + 1 ≤ b ∧ b < a + 1 + ws.length
      · rw [dif_pos h2, dif_pos (by omega)]
        obtain ⟨k, rfl⟩ : ∃ k, b = a + 1 + k := ⟨b - (a + 1), by omega⟩
        simp [show a + 1 + k - a = k + 1 by omega]
      · rw [dif_neg h2, dif_neg (by omega), if_neg hb]

/-- The indirect form with a pointer in range. -/
theorem indirect_of_lt {s : State} (act : State → Word → State) (h : s.mbr.toNat < Config.memWords) :
    indirect s act = act s (s.mem.get s.mbr.toNat) := by
  unfold indirect
  rw [State.memRead_of_lt h]

/-- The indirect form with a pointer out of range. -/
theorem indirect_of_le {s : State} (act : State → Word → State) (h : Config.memWords ≤ s.mbr.toNat) :
    indirect s act = s.raise .dataAddress (some s.mbr) := by
  unfold indirect
  rw [State.memRead_of_le h]

/-! ### The reader -/

/-- What a move of the reader can do: fill HANDOFF, end the run, or nothing once the run has ended. -/
theorem State.readerMove_cases (s : State) (m : ReaderMove) :
    (∃ v, m = .deliver v ∧ s.status = .running ∧ s.readerMove m = s.deliver v) ∨
      (m = .parseFault ∧ s.status = .running ∧ s.readerMove m = s.raise .inputParse none) ∨
      (s.status ≠ .running ∧ s.readerMove m = s) := by
  unfold State.readerMove
  cases hs : s.status <;> cases m <;> simp [State.readerFault]

/-- The reader's moves change HANDOFF and STATUS only. -/
theorem State.readerMoves_eq (s : State) (ms : List ReaderMove) :
    ∃ h st, s.readerMoves ms = { s with handoff := h, status := st } := by
  induction ms generalizing s with
  | nil => exact ⟨s.handoff, s.status, rfl⟩
  | cons m ms ih =>
    obtain ⟨h, st, e⟩ := ih (s.readerMove m)
    rcases s.readerMove_cases m with ⟨v, -, -, em⟩ | ⟨-, -, em⟩ | ⟨-, em⟩ <;>
      exact ⟨h, st, by rw [em] at e; rw [State.readerMoves, em]; exact e⟩

/-- STATUS after the reader's moves: as it was, or INPUT_PARSE (R184). -/
theorem State.readerMoves_status (s : State) (ms : List ReaderMove) :
    (s.readerMoves ms).status = s.status ∨ (s.readerMoves ms).status = .faulted ⟨.inputParse, none⟩ := by
  induction ms generalizing s with
  | nil => exact .inl rfl
  | cons m ms ih =>
    simp only [State.readerMoves]
    rcases s.readerMove_cases m with ⟨v, -, -, em⟩ | ⟨-, -, em⟩ | ⟨-, em⟩
    · simpa [em] using ih (s.deliver v)
    · right
      rcases ih (s.raise .inputParse none) with h | h <;> simp [em, h]
    · simpa [em] using ih s

/-- The reader's turn changes HANDOFF, STATUS and the schedule only. -/
theorem State.readerTurn_eq (s : State) :
    ∃ h st r, s.readerTurn = { s with handoff := h, status := st, reader := r } := by
  unfold State.readerTurn
  cases s.reader with
  | nil => exact ⟨s.handoff, s.status, s.reader, rfl⟩
  | cons ms rest =>
    obtain ⟨h, st, e⟩ := State.readerMoves_eq { s with reader := rest } ms
    exact ⟨h, st, rest, e⟩

@[simp] theorem State.readerTurn_pc (s : State) : s.readerTurn.pc = s.pc := by
  obtain ⟨_, _, _, e⟩ := s.readerTurn_eq; rw [e]
@[simp] theorem State.readerTurn_ir (s : State) : s.readerTurn.ir = s.ir := by
  obtain ⟨_, _, _, e⟩ := s.readerTurn_eq; rw [e]
@[simp] theorem State.readerTurn_ac (s : State) : s.readerTurn.ac = s.ac := by
  obtain ⟨_, _, _, e⟩ := s.readerTurn_eq; rw [e]
@[simp] theorem State.readerTurn_mar (s : State) : s.readerTurn.mar = s.mar := by
  obtain ⟨_, _, _, e⟩ := s.readerTurn_eq; rw [e]
@[simp] theorem State.readerTurn_mbr (s : State) : s.readerTurn.mbr = s.mbr := by
  obtain ⟨_, _, _, e⟩ := s.readerTurn_eq; rw [e]
@[simp] theorem State.readerTurn_inreg (s : State) : s.readerTurn.inreg = s.inreg := by
  obtain ⟨_, _, _, e⟩ := s.readerTurn_eq; rw [e]
@[simp] theorem State.readerTurn_outreg (s : State) : s.readerTurn.outreg = s.outreg := by
  obtain ⟨_, _, _, e⟩ := s.readerTurn_eq; rw [e]
@[simp] theorem State.readerTurn_mem (s : State) : s.readerTurn.mem = s.mem := by
  obtain ⟨_, _, _, e⟩ := s.readerTurn_eq; rw [e]
@[simp] theorem State.readerTurn_out (s : State) : s.readerTurn.out = s.out := by
  obtain ⟨_, _, _, e⟩ := s.readerTurn_eq; rw [e]
@[simp] theorem State.readerTurn_opcode0Mode (s : State) : s.readerTurn.opcode0Mode = s.opcode0Mode := by
  obtain ⟨_, _, _, e⟩ := s.readerTurn_eq; rw [e]

/-- STATUS after the reader's turn: as it was, or INPUT_PARSE (R184). -/
theorem State.readerTurn_status (s : State) :
    s.readerTurn.status = s.status ∨ s.readerTurn.status = .faulted ⟨.inputParse, none⟩ := by
  unfold State.readerTurn
  cases s.reader with
  | nil => exact .inl rfl
  | cons ms rest => exact State.readerMoves_status { s with reader := rest } ms

/-! ### Fetch and step -/

theorem State.fetch_of_lt {s : State} (h : s.pc.toNat < Config.memWords) :
    s.fetch = .ok { s with mar := s.pc, ir := s.mem.get s.pc.toNat, pc := s.pc + 1 } := by
  unfold State.fetch
  simp only [State.memRead, if_pos h]

theorem State.fetch_of_le {s : State} (h : Config.memWords ≤ s.pc.toNat) :
    s.fetch = .error ({ s with mar := s.pc }.raise .fetchAddress (some s.pc)) := by
  unfold State.fetch
  simp only [State.memRead, if_neg (show ¬s.pc.toNat < Config.memWords by omega)]

/-! The fields of the state a ready state's fetch leaves. -/

@[simp] theorem State.fetched_pc (s : State) : s.fetched.pc = s.pc + 1 := by simp [State.fetched]
@[simp] theorem State.fetched_ir (s : State) : s.fetched.ir = s.nextWord := by simp [State.fetched, State.nextWord]
@[simp] theorem State.fetched_ac (s : State) : s.fetched.ac = s.ac := by simp [State.fetched]
@[simp] theorem State.fetched_mar (s : State) : s.fetched.mar = s.pc := by simp [State.fetched]
@[simp] theorem State.fetched_mbr (s : State) : s.fetched.mbr = s.mbr := by simp [State.fetched]
@[simp] theorem State.fetched_inreg (s : State) : s.fetched.inreg = s.readerTurn.handoff.getD s.inreg := by simp [State.fetched]
@[simp] theorem State.fetched_outreg (s : State) : s.fetched.outreg = s.outreg := by simp [State.fetched]
@[simp] theorem State.fetched_mem (s : State) : s.fetched.mem = s.mem := by simp [State.fetched]
@[simp] theorem State.fetched_status (s : State) : s.fetched.status = s.readerTurn.status := by simp [State.fetched]
@[simp] theorem State.fetched_handoff (s : State) : s.fetched.handoff = none := by simp [State.fetched]
@[simp] theorem State.fetched_out (s : State) : s.fetched.out = s.out := by simp [State.fetched]
@[simp] theorem State.fetched_opcode0Mode (s : State) : s.fetched.opcode0Mode = s.opcode0Mode := by simp [State.fetched]
@[simp] theorem State.fetched_reader (s : State) : s.fetched.reader = s.readerTurn.reader := by simp [State.fetched]

/-- Everything a step that answers a next state can be: the reader ended the run, the fetch had no memory behind it, or
the instruction at PC ran. -/
theorem step_cases {s t : State} (h : step s = .next t) :
    s.status = .running ∧
      ((s.readerTurn.status = .faulted ⟨.inputParse, none⟩ ∧ t = s.readerTurn) ∨
        (s.readerTurn.status = .running ∧ Config.memWords ≤ s.pc.toNat ∧
          t = { s.readerTurn.poll with mar := s.pc }.raise .fetchAddress (some s.pc)) ∨
        (s.readerTurn.status = .running ∧ s.pc.toNat < Config.memWords ∧ exec s.instruction s.fetched = .next t)) := by
  unfold step at h
  cases hs : s.status with
  | halted => rw [hs] at h; cases h
  | faulted r => rw [hs] at h; cases h
  | running =>
    simp only [hs, runStep] at h
    refine ⟨rfl, ?_⟩
    rcases s.readerTurn_status with hr | hr
    · rw [hs] at hr
      simp only [hr, cycle] at h
      by_cases hp : s.pc.toNat < Config.memWords
      · rw [State.fetch_of_lt (by simpa using hp)] at h
        refine .inr (.inr ⟨hr, hp, ?_⟩)
        simpa [State.instruction, State.fetched] using h
      · rw [State.fetch_of_le (by simpa using hp)] at h
        refine .inr (.inl ⟨hr, by omega, ?_⟩)
        simpa [eq_comm] using h
    · simp only [hr] at h
      exact .inl ⟨hr, by simpa [eq_comm] using h⟩

end Sys2Proof.Machine
end

