-- ==== Sys2Proof/Laws/PerInstr.lean ====
section
/-!
SUPPORT. The statement made for every instruction as syntax: its word holds its opcode in bits 15:12 and its twelve low
bits in bits 11:0 (R71 to R73, R92).
-/

namespace Sys2Proof.Laws.EncodeFields

/-- The fields of the word of `i` are its opcode and its low bits, and the word is made of nothing else. -/
def Statement (i : Instr) : Prop :=
  opcodeField (encode i) = i.opcode ∧ addrField (encode i) = i.lowBits ∧ encode i = mkWord i.opcode i.lowBits

theorem statement_of_mkWord (i : Instr) : Statement i :=
  ⟨opcodeField_mkWord _ _, addrField_mkWord _ _, rfl⟩

theorem zeroHalt (x : Addr) : Statement (.zeroHalt x) := statement_of_mkWord _
theorem jnS (x : Addr) : Statement (.jnS x) := statement_of_mkWord _
theorem load (x : Addr) : Statement (.load x) := statement_of_mkWord _
theorem store (x : Addr) : Statement (.store x) := statement_of_mkWord _
theorem add (x : Addr) : Statement (.add x) := statement_of_mkWord _
theorem subt (x : Addr) : Statement (.subt x) := statement_of_mkWord _
theorem input (n : Addr) : Statement (.input n) := statement_of_mkWord _
theorem output (n : Addr) : Statement (.output n) := statement_of_mkWord _
theorem halt (n : Addr) : Statement (.halt n) := statement_of_mkWord _
theorem skipcond (c : SkipCond) (n : BitVec 10) : Statement (.skipcond c n) := statement_of_mkWord _
theorem skipcondBad (n : BitVec 10) : Statement (.skipcondBad n) := statement_of_mkWord _
theorem jump (x : Addr) : Statement (.jump x) := statement_of_mkWord _
theorem clear (n : Addr) : Statement (.clear n) := statement_of_mkWord _
theorem addI (x : Addr) : Statement (.addI x) := statement_of_mkWord _
theorem jumpI (x : Addr) : Statement (.jumpI x) := statement_of_mkWord _
theorem loadI (x : Addr) : Statement (.loadI x) := statement_of_mkWord _
theorem storeI (x : Addr) : Statement (.storeI x) := statement_of_mkWord _
theorem illegalOpcode (n : Addr) : Statement (.illegalOpcode n) := statement_of_mkWord _

end Sys2Proof.Laws.EncodeFields
end

