-- ==== Sys2Proof/Tests/Slice0.lean ====
section
/-!
SUPPORT. Tests. Expected values come from the spec: its worked examples and hand-derived vectors (95_test_vectors.md,
whose ids the names carry) and the encoding tables of 30_encoding.md. After them, one witness for the hypotheses of each
statement that has any.
-/

namespace Sys2Proof.Tests

open Sys2Proof Sys2Proof.Machine

/-- A reset state with PC, AC and some words of memory set. -/
def at_ (pc ac : Word) (cells : List (Nat × Word)) : State :=
  { State.reset with pc := pc, ac := ac, mem := cells.foldl (fun m c => m.set c.1 c.2) [] }

/-- What `f` sees in the state after one step. -/
def look {α : Type} (f : State → α) (s : State) : Option α :=
  match step s with
  | .next t => some (f t)
  | .fault _ => none
  | .refused _ => none

/-! ### WellFormed refuses an ill-formed term for each check -/

theorem test_wellFormed_refuses_zeroHalt_nonzero : (Instr.zeroHalt 1).wellFormed .haltOnZeroWord = false := by decide
theorem test_wellFormed_refuses_jnS_zero : (Instr.jnS 0).wellFormed .haltOnZeroWord = false := by decide
theorem test_wellFormed_refuses_jnS_other_mode : (Instr.jnS 1).wellFormed .haltOnZeroOpcode = false := by decide
theorem test_wellFormed_accepts :
    (Instr.zeroHalt 1).wellFormed .haltOnZeroOpcode = true ∧ (Instr.jnS 1).wellFormed .haltOnZeroWord = true := by decide

/-! ### Decoding, words written out bit by bit from R71 to R78 -/

theorem test_decode_zeroHalt : decodeWord .haltOnZeroWord 0b0000000000000000 = .zeroHalt 0 := by decide
theorem test_decode_jnS : decodeWord .haltOnZeroWord 0b0000001000000000 = .jnS 0x200 := by decide
theorem test_decode_load : decodeWord .haltOnZeroWord 0b0001000100000100 = .load 0x104 := by decide
theorem test_decode_store : decodeWord .haltOnZeroWord 0b0010000100000110 = .store 0x106 := by decide
theorem test_decode_add : decodeWord .haltOnZeroWord 0b0011000100000101 = .add 0x105 := by decide
theorem test_decode_subt : decodeWord .haltOnZeroWord 0b0100001000001000 = .subt 0x208 := by decide
theorem test_decode_input : decodeWord .haltOnZeroWord 0b0101000000000000 = .input 0 := by decide
theorem test_decode_output : decodeWord .haltOnZeroWord 0b0110000000000001 = .output 1 := by decide
theorem test_decode_halt : decodeWord .haltOnZeroWord 0b0111101010111100 = .halt 0xABC := by decide
theorem test_decode_skipcond : decodeWord .haltOnZeroWord 0b1000010000000001 = .skipcond .equal 1 := by decide
theorem test_decode_skipcond_greater : decodeWord .haltOnZeroWord 0b1000100000000000 = .skipcond .greaterThan 0 := by decide
theorem test_decode_skipcondBad : decodeWord .haltOnZeroWord 0b1000111111111111 = .skipcondBad 0x3FF := by decide
theorem test_decode_jump : decodeWord .haltOnZeroWord 0b1001001000000000 = .jump 0x200 := by decide
theorem test_decode_clear : decodeWord .haltOnZeroWord 0b1010000000000000 = .clear 0 := by decide
theorem test_decode_addI : decodeWord .haltOnZeroWord 0b1011010000001111 = .addI 0x40F := by decide
theorem test_decode_jumpI : decodeWord .haltOnZeroWord 0b1100001100000100 = .jumpI 0x304 := by decide
theorem test_decode_loadI : decodeWord .haltOnZeroWord 0b1101010000001111 = .loadI 0x40F := by decide
theorem test_decode_storeI : decodeWord .haltOnZeroWord 0b1110010000010010 = .storeI 0x412 := by decide
theorem test_decode_illegal : decodeWord .haltOnZeroWord 0b1111000100100011 = .illegalOpcode 0x123 := by decide
theorem test_decode_other_mode : decodeWord .haltOnZeroOpcode 0b0000001000000000 = .zeroHalt 0x200 := by decide
theorem test_encode_skipcond : encode (.skipcond .greaterThan 0) = 0x8800 := by decide
theorem test_decodeTableWord : decodeTableWord 16 0x8C00 = some (.skipcondBad 0) ∧ decodeTableWord 24 0x1000 = none := by
  decide
theorem test_withFetchWord : look (fun t => (t.pc, t.ir, t.status)) (State.reset.withFetchWord 16 0x7000) =
    some (0x001, 0x7000, .halted) := by decide

/-! ### Steps -/

/-- V2. -/
theorem test_zeroHalt_V2 : look (fun t => (t.status, t.pc, t.ir, t.mar, t.mbr)) (at_ 0x020 0 [(0, 0x7777)]) =
    some (.halted, 0x021, 0, 0, 0x7777) := by decide
/-- V3 under HALT_ON_ZERO_OPCODE. -/
theorem test_zeroHalt_V3 : look (fun t => (t.status, t.pc, t.mar, t.mbr))
    { at_ 0x020 0 [(0x020, 0x0005), (0x005, 0x1111)] with opcode0Mode := .haltOnZeroOpcode } =
    some (.halted, 0x021, 0x005, 0x1111) := by decide
/-- C1. -/
theorem test_jnS_C1 : look (fun t => (t.mem.get 0x200, t.ac, t.pc, t.mbr))
    (at_ 0x010 0x1234 [(0x010, 0x0200), (0x200, 0xAAAA)]) = some (0x0011, 0x0201, 0x0201, 0xAAAA) := by decide
/-- C2: the top cell; PC leaves memory. -/
theorem test_jnS_C2 : look (fun t => (t.mem.get 0xFFF, t.ac, t.pc)) (at_ 0x100 0 [(0x100, 0x0FFF)]) =
    some (0x0101, 0x1000, 0x1000) := by decide
/-- T1. -/
theorem test_load_T1 : look (fun t => (t.ac, t.mbr)) (at_ 0x050 0 [(0x050, 0x1104), (0x104, 0x0005)]) =
    some (0x0005, 0x0005) := by decide
/-- T2: loads itself. -/
theorem test_load_T2 : look (fun t => t.ac) (at_ 0x050 0 [(0x050, 0x1050)]) = some 0x1050 := by decide
/-- T4: MBR keeps the old word. -/
theorem test_store_T4 : look (fun t => (t.mem.get 0x106, t.mbr)) (at_ 0x050 0x000C [(0x050, 0x2106)]) =
    some (0x000C, 0x0000) := by decide
/-- T6: a stored zero leaves no entry. -/
theorem test_store_T6 : look (fun t => t.mem) (at_ 0x04F 0x0000 [(0x04F, 0x2050), (0x050, 0x7000)]) =
    some [(0x04F, 0x2050)] := by decide
/-- A1. -/
theorem test_add_A1 : look (fun t => t.ac) (at_ 0x010 0xFFFF [(0x010, 0x3050), (0x050, 0x0001)]) = some 0x0000 := by decide
/-- A2. -/
theorem test_add_A2 : look (fun t => t.ac) (at_ 0x010 0x7FFF [(0x010, 0x3050), (0x050, 0x0001)]) = some 0x8000 := by decide
/-- A6: the order of the operands and the wrap. -/
theorem test_subt_A6 : look (fun t => t.ac) (at_ 0x010 0x0000 [(0x010, 0x4050), (0x050, 0x0001)]) = some 0xFFFF := by decide
/-- A9. -/
theorem test_subt_A9 : look (fun t => t.ac) (at_ 0x010 0x0003 [(0x010, 0x4208), (0x208, 0x0001)]) = some 0x0002 := by decide
/-- I3: last value wins. -/
theorem test_input_I3 : look (fun t => (t.inreg, t.ac, t.handoff))
    { at_ 0x010 0 [(0x010, 0x5000)] with reader := [[.deliver 42, .deliver 7]] } = some (7, 7, none) := by decide
/-- I4: a second Input reads the stale latch. -/
theorem test_input_I4 : look (fun t => (t.inreg, t.ac)) { at_ 0x010 0 [(0x010, 0x5000)] with inreg := 0x2A } =
    some (0x2A, 0x2A) := by decide
/-- I6. -/
theorem test_output_I6 : look (fun t => (t.outreg, t.out, t.ac)) (at_ 0x010 0x002A [(0x010, 0x6000)]) =
    some (0x2A, [0x2A], 0x2A) := by decide
/-- I8: the later word comes last. -/
theorem test_output_I8 : look (fun t => t.out) { at_ 0x010 0x0003 [(0x010, 0x6FFF)] with out := [0x0009] } =
    some [0x0009, 0x0003] := by decide
/-- V8. -/
theorem test_halt_V8 : look (fun t => (t.status, t.dump)) (at_ 0x040 0 [(0x040, 0x7ABC), (0xABC, 0x1357)]) =
    some (.halted, some ⟨0x041, 0x7ABC, 0, 0xABC, 0x1357, 0, 0⟩) := by decide
/-- C6, C10: 0x8000 is less than zero and zero is not. -/
theorem test_skipcond_less : look (fun t => t.pc) (at_ 0x050 0x8000 [(0x050, 0x8000)]) = some 0x052 ∧
    look (fun t => t.pc) (at_ 0x050 0x0000 [(0x050, 0x8000)]) = some 0x051 := by decide
/-- C7, C9, C14. -/
theorem test_skipcond_greater_equal : look (fun t => t.pc) (at_ 0x050 0x7FFF [(0x050, 0x8800)]) = some 0x052 ∧
    look (fun t => t.pc) (at_ 0x050 0x8000 [(0x050, 0x8800)]) = some 0x051 ∧
    look (fun t => t.pc) (at_ 0x050 0x0000 [(0x050, 0x87FF)]) = some 0x052 := by decide
/-- C12. -/
theorem test_skipcondBad_C12 : look (fun t => t.status) (at_ 0x050 0x0000 [(0x050, 0x8FFF)]) =
    some (.faulted ⟨.badSkipCondition, some 0x8FFF⟩) := by decide
/-- C16. -/
theorem test_jump_C16 : look (fun t => t.pc) (at_ 0x206 0 [(0x206, 0x9200)]) = some 0x200 := by decide
/-- V9, A12. -/
theorem test_clear_V9 : look (fun t => (t.ac, t.mar, t.mbr)) (at_ 0x040 9 [(0x040, 0xA123), (0x123, 0x5555)]) =
    some (0, 0x123, 0x5555) := by decide
/-- A14: the sum wraps. -/
theorem test_addI_A14 : look (fun t => (t.ac, t.mbr)) (at_ 0x010 0xFFFF [(0x010, 0xB050), (0x050, 0x0070), (0x070, 2)]) =
    some (0x0001, 0x0070) := by decide
/-- A15. -/
theorem test_addI_A15 : look (fun t => t.status) (at_ 0x010 0x0001 [(0x010, 0xB050), (0x050, 0x1000)]) =
    some (.faulted ⟨.dataAddress, some 0x1000⟩) := by decide
/-- C18. -/
theorem test_jumpI_C18 : look (fun t => (t.pc, t.mbr)) (at_ 0x308 0 [(0x304, 0x0301), (0x308, 0xC304)]) =
    some (0x301, 0x0301) := by decide
/-- C19: the target is not checked here. -/
theorem test_jumpI_C19 : look (fun t => (t.pc, t.status)) (at_ 0x010 0 [(0x010, 0xC060), (0x060, 0x1000)]) =
    some (0x1000, .running) := by decide
/-- T7. -/
theorem test_loadI_T7 : look (fun t => (t.ac, t.mar, t.mbr))
    (at_ 0x050 0 [(0x050, 0xD40F), (0x40F, 0x0413), (0x413, 0x000A)]) = some (0x000A, 0x40F, 0x0413) := by decide
/-- T9. -/
theorem test_loadI_T9 : look (fun t => t.status) (at_ 0x050 1 [(0x050, 0xD060), (0x060, 0x1000)]) =
    some (.faulted ⟨.dataAddress, some 0x1000⟩) := by decide
/-- T11: the pointer cell is overwritten, MBR is not. -/
theorem test_storeI_T11 : look (fun t => (t.mem.get 0x060, t.mbr)) (at_ 0x050 0x1234 [(0x050, 0xE060), (0x060, 0x0060)]) =
    some (0x1234, 0x0060) := by decide
/-- T13: the top cell. -/
theorem test_storeI_T13 : look (fun t => t.mem.get 0xFFF) (at_ 0x050 0x1234 [(0x050, 0xE060), (0x060, 0x0FFF)]) =
    some 0x1234 := by decide
/-- V6. -/
theorem test_illegal_V6 : look (fun t => t.status) (at_ 0x030 0 [(0x030, 0xF123)]) =
    some (.faulted ⟨.illegalOpcode, some 0xF123⟩) := by decide
/-- V4, V5. -/
theorem test_fetch_V4_V5 : look (fun t => t.status) (at_ 0x1000 0 []) = some (.faulted ⟨.fetchAddress, some 0x1000⟩) ∧
    look (fun t => t.status) (at_ 0xFFFF 0 []) = some (.faulted ⟨.fetchAddress, some 0xFFFF⟩) := by decide
/-- I9, with OUT kept. -/
theorem test_readerFault_I9 : look (fun t => (t.status, t.out))
    { at_ 0x010 0 [(0x010, 0x6000)] with out := [5], reader := [[.deliver 1, .parseFault]] } =
    some (.faulted ⟨.inputParse, none⟩, [5]) := by decide
/-- R108: an ended run has no step. -/
theorem test_halted_has_no_step : look (fun t => t.pc) { State.reset with status := .halted } = none := by decide

/-! ### The toolchain: P1, S5, E2, E7, E8 -/

theorem test_assemble_P1 :
    (assemble "ORG 100\nLoad X  / c\nAdd Y\nStore Z\n\nHalt\nX, Dec 5\nY, Dec 7\nZ, Dec 0\nEND\n".toList).toOption =
      some ⟨0x100, [0x1104, 0x3105, 0x2106, 0x7000, 0x0005, 0x0007, 0x0000]⟩ := by decide
theorem test_assemble_decimal_first :
    (assemble "ORG 100\nLoad 103\n103, Dec 5\nEND".toList).toOption = some ⟨0x100, [0x1067, 0x0005]⟩ := by decide
theorem test_assemble_skipcond : (assemble "ORG 0\nSkipcond C00".toList).toOption = some ⟨0, [0x8C00]⟩ := by decide
theorem test_assemble_refusals :
    assemble "ORG 0\nLoad 4096".toList = .error .outOfRange ∧ assemble "ORG 0\nDec -1".toList = .error .outOfRange ∧
    assemble "ORG 0\nHalt 5".toList = .error .operandRefused ∧ assemble "Load 5".toList = .error .syntaxError := by
  refine ⟨?_, ?_, ?_, ?_⟩ <;> rfl
/-- R84: text that does not parse as a literal is looked up, a leading sign or none. -/
theorem test_assemble_signed_names :
    (assemble "ORG 0\nLoad -foo\n-foo, Dec 5".toList).toOption = some ⟨0, [0x1001, 0x0005]⟩ ∧
    assemble "ORG 0\nLoad -foo".toList = .error (.undefinedSymbol "-foo".toList) := by
  refine ⟨by decide, rfl⟩

/-! ### Witnesses: each statement's hypotheses can be met -/

theorem ready_reset : State.reset.Ready := ⟨rfl, rfl, by decide⟩

/-- The last address is ready, and the first without memory is not. -/
theorem witness_Ready_bounds : (at_ 0xFFF 0 []).Ready ∧ ¬(at_ 0x1000 0 []).Ready :=
  ⟨⟨rfl, rfl, by decide⟩, fun h => absurd h.2.2 (by decide)⟩

theorem witness_DecodeOfEncode : (Instr.jnS 0xFFF).wellFormed .haltOnZeroWord = true ∧
    (Instr.zeroHalt 0).wellFormed .haltOnZeroWord = true ∧ (Instr.storeI 0).wellFormed .haltOnZeroOpcode = true := by decide
theorem witness_HaltCheckBeforeDispatch : (1 : Addr) ≠ 0 ∧ opcodeField 0x1000 ≠ 0 ∧ opcodeField 0xFFFF ≠ 0 := by decide
theorem witness_HaltCheckEndsRun : zeroHaltWord .haltOnZeroOpcode 0x0FFF = true ∧
    decodeWord .haltOnZeroOpcode 0x0FFF = .zeroHalt 0xFFF := by decide
theorem witness_JnSStoresReturnAddress : (0xFFF : Addr) ≠ 0 := by decide
/-- Pointers on both sides of 4096, for AddI, LoadI and StoreI. -/
theorem witness_pointers :
    ((at_ 0 0 [(5, 0x0FFF)]).mem.get (5 : Addr).toNat).toNat < 4096 ∧
    4096 ≤ ((at_ 0 0 [(5, 0x1000)]).mem.get (5 : Addr).toNat).toNat ∧
    4096 ≤ ((at_ 0 0 [(5, 0xFFFF)]).mem.get (5 : Addr).toNat).toNat := by decide
theorem witness_IllegalOpcodeFaults : decodeWord .haltOnZeroWord 0xFFFF = .illegalOpcode 0xFFF ∧
    decodeWord .haltOnZeroWord 0x0001 = .jnS 1 ∧ opcodeField 0x0FFF = 0x0 ∧
    decodeWord .haltOnZeroWord 0x0000 = .zeroHalt 0 ∧ decodeWord .haltOnZeroWord 0x0FFF = .jnS 0xFFF ∧
    decodeWord .haltOnZeroOpcode 0x0FFF = .zeroHalt 0xFFF ∧ opcodeField 0xF000 ≠ 0x0 := by decide
theorem witness_ExactlyOneConditionHolds : skipTaken .equal 0 = true ∧ skipTaken .lessThan 0x8000 = true ∧
    skipTaken .greaterThan 0x7FFF = true := by decide
theorem witness_ExecWritesOnlyDestinations : ∃ t, exec (.jump 5) (at_ 0 3 []) = .next t ∧ t.status.isFaulted = false ∧
    writesAc (.jump 5) = false ∧ isOutput (.jump 5) = false ∧ haltsRun (.jump 5) = false ∧
    storesWord (.jump 5) = false ∧ writesPc (.load 5) = false := ⟨_, rfl, by decide⟩
/-- Each storing instruction completes, at the top of memory, and leaves the word beside it. -/
theorem witness_ExecWritesOnlyDestinations_stores :
    (∃ t, exec (.jnS 0xFFF) (at_ 0 3 [(0xFFE, 7)]) = .next t ∧ t.status.isFaulted = false ∧ t.mem.get 0xFFE = 7) ∧
    (∃ t, exec (.store 0xFFF) (at_ 0 3 [(0xFFE, 7)]) = .next t ∧ t.status.isFaulted = false ∧ t.mem.get 0xFFE = 7) ∧
    (∃ t, exec (.storeI 0xFFE) (at_ 0 3 [(0xFFE, 0xFFF)]) = .next t ∧ t.status.isFaulted = false ∧
      t.mem.get 0xFFE = 0xFFF ∧ t.mem.get 0xFFF = 3) :=
  ⟨⟨_, rfl, by decide⟩, ⟨_, rfl, by decide⟩, ⟨_, rfl, by decide⟩⟩
theorem witness_StepStoresOnlyAtItsAddress : ∃ t, step (at_ 1 3 [(1, 0x2FFF)]) = .next t ∧
    t.status.isFaulted = false ∧ t.mem.get 0xFFF ≠ (at_ 1 3 [(1, 0x2FFF)]).mem.get 0xFFF := ⟨_, rfl, by decide⟩
theorem witness_StepStoresOnlyAtItsAddress_jnS : ∃ t, step (at_ 1 3 [(1, 0x0FFF)]) = .next t ∧
    t.status.isFaulted = false ∧ t.mem.get 0xFFF ≠ (at_ 1 3 [(1, 0x0FFF)]).mem.get 0xFFF := ⟨_, rfl, by decide⟩
theorem witness_StepStoresOnlyAtItsAddress_storeI : ∃ t, step (at_ 1 3 [(1, 0xE002), (2, 0x0FFF)]) = .next t ∧
    t.status.isFaulted = false ∧ t.mem.get 0xFFF ≠ (at_ 1 3 [(1, 0xE002), (2, 0x0FFF)]).mem.get 0xFFF :=
  ⟨_, rfl, by decide⟩
theorem witness_StepRunsDecodedInstruction : (at_ 0xFFF 0 [(0xFFF, 0xA000)]).Ready := ⟨rfl, rfl, by decide⟩
theorem witness_StepRunsEncodedInstruction : (at_ 0xFFF 0 [(0xFFF, 0xA000)]).Ready ∧
    (Instr.clear 0).wellFormed .haltOnZeroWord = true ∧
    (at_ 0xFFF 0 [(0xFFF, 0xA000)]).mem.get (0xFFF : Word).toNat = encode (.clear 0) :=
  ⟨⟨rfl, rfl, by decide⟩, by decide, by decide⟩
theorem witness_FetchPastMemoryFaults : (at_ 0x1000 0 []).status = .running ∧
    (at_ 0x1000 0 []).readerTurn.status = .running ∧ 4096 ≤ (at_ 0x1000 0 []).pc.toNat := by decide
/-- A step in each clause of the fault causes, and of the steps' statements: by the reader, by the fetch, by opcode 0xF,
by condition 11, by a pointer of 0x1000. -/
theorem witness_FaultCausesExact :
    (∃ t, step { State.reset with reader := [[.parseFault]] } = .next t ∧ t.status = .faulted ⟨.inputParse, none⟩) ∧
    (∃ t, step (at_ 0x1000 0 []) = .next t ∧ t.status = .faulted ⟨.fetchAddress, some 0x1000⟩) ∧
    (∃ t, step (at_ 0 0 [(0, 0xF000)]) = .next t ∧ t.status = .faulted ⟨.illegalOpcode, some 0xF000⟩) ∧
    (∃ t, step (at_ 0 0 [(0, 0x8C00)]) = .next t ∧ t.status = .faulted ⟨.badSkipCondition, some 0x8C00⟩) ∧
    (∃ t, step (at_ 0 0 [(0, 0xE001), (1, 0x1000)]) = .next t ∧ t.status = .faulted ⟨.dataAddress, some 0x1000⟩) :=
  ⟨⟨_, rfl, by decide⟩, ⟨_, rfl, by decide⟩, ⟨_, rfl, by decide⟩, ⟨_, rfl, by decide⟩, ⟨_, rfl, by decide⟩⟩
theorem witness_HaltCausesExact : (∃ t, step State.reset = .next t ∧ t.status = .halted) ∧
    (∃ t, step (at_ 0 0 [(0, 0x7000)]) = .next t ∧ t.status = .halted) := ⟨⟨_, rfl, by decide⟩, ⟨_, rfl, by decide⟩⟩
theorem witness_FetchFaultBeforeHaltCheck :
    (∃ t, (at_ 0xFFFF 0 []).readerTurn.status = .running ∧ 4096 ≤ (at_ 0xFFFF 0 []).pc.toNat ∧
      step (at_ 0xFFFF 0 []) = .next t) ∧
    State.Ready { at_ 0 0 [(0, 0x0FFF)] with opcode0Mode := .haltOnZeroOpcode } ∧
    opcodeField (State.nextWord { at_ 0 0 [(0, 0x0FFF)] with opcode0Mode := .haltOnZeroOpcode }) = 0x0 :=
  ⟨⟨_, rfl, by decide, rfl⟩, ⟨rfl, rfl, by decide⟩, by decide⟩
theorem witness_OutIsAppendOnly : (at_ 0 7 [(0, 0x6000)]).Ready ∧ opcodeField (at_ 0 7 [(0, 0x6000)]).nextWord = 0x6 ∧
    (∃ t, step (at_ 0 7 [(0, 0x6000)]) = .next t) ∧ (∃ t, step State.reset = .next t) ∧
    ¬(State.reset.Ready ∧ opcodeField State.reset.nextWord = 0x6) :=
  ⟨⟨rfl, rfl, by decide⟩, by decide, ⟨_, rfl⟩, ⟨_, rfl⟩, fun h => absurd h.2 (by decide)⟩
/-- A ready step for each clause on PC: JnS at X = 0xFFF, Skipcond at 0xFFF, Jump, JumpI to 0xFFFF, Clear, and a halting
word at 0xFFF. -/
theorem witness_PcAfterStep :
    look (fun t => (t.status, t.pc)) (at_ 0 0 [(0, 0x0FFF)]) = some (.running, 0x1000) ∧
    look (fun t => (t.status, t.pc)) (at_ 0xFFF 0 [(0xFFF, 0x8400)]) = some (.running, 0x1001) ∧
    look (fun t => (t.status, t.pc)) (at_ 0xFFF 1 [(0xFFF, 0x8400)]) = some (.running, 0x1000) ∧
    look (fun t => (t.status, t.pc)) (at_ 0 0 [(0, 0x9FFF)]) = some (.running, 0x0FFF) ∧
    look (fun t => (t.status, t.pc)) (at_ 0 0 [(0, 0xC001), (1, 0xFFFF)]) = some (.running, 0xFFFF) ∧
    look (fun t => (t.status, t.pc)) (at_ 0xFFF 0 [(0xFFF, 0xA000)]) = some (.running, 0x1000) ∧
    look (fun t => (t.status, t.pc)) (at_ 0xFFF 0 []) = some (.halted, 0x1000) ∧
    condBits (addrField 0x8400) = SkipCond.equal.bits ∧
    (at_ 0xFFF 0 [(0xFFF, 0xA000)]).Ready := by
  exact ⟨by decide, by decide, by decide, by decide, by decide, by decide, by decide, by decide, rfl, rfl, by decide⟩
theorem witness_ModeIsConstant : ∃ t, step { State.reset with opcode0Mode := .haltOnZeroOpcode } = .next t := ⟨_, rfl⟩
theorem witness_EveryStepPollsHandoff : State.handoff { State.reset with handoff := some 3 } = some 3 ∧
    State.reset.handoff = none ∧ State.Ready { at_ 0 0 [(0, 0xA000)] with handoff := some 3 } ∧
    look (fun t => (t.status.isFaulted, t.inreg, t.handoff)) { at_ 0 0 [(0, 0xA000)] with handoff := some 3 } =
      some (false, 3, none) := ⟨rfl, rfl, ⟨rfl, rfl, by decide⟩, by decide⟩
theorem witness_InputReadsLastDelivery :
    ([.deliver 42, .deliver 7] : List ReaderMove) = [.deliver 42] ++ [.deliver 7] ∧
    ([.deliver 42] : List ReaderMove).all ReaderMove.isDelivery = true ∧
    opcodeField (at_ 0xFFF 0 [(0xFFF, 0x5000)]).nextWord = 0x5 ∧ (at_ 0xFFF 0 [(0xFFF, 0x5000)]).pc.toNat < 4096 ∧
    (at_ 0xFFF 0 [(0xFFF, 0x5000)]).reader = [] ∧ (at_ 0xFFF 0 [(0xFFF, 0x5000)]).handoff = none := by decide
/-- A state that delivers two values before the Input at the last address, and one whose deliveries come only later. -/
def inputState (sched : List (List ReaderMove)) : State := { at_ 0xFFF 0 [(0xFFF, 0x5000)] with reader := sched }
theorem witness_InputReadsLastDelivery_schedules :
    ((inputState [[.deliver 42, .deliver 7], [.deliver 9]]).status = .running ∧
      (inputState [[.deliver 42, .deliver 7], [.deliver 9]]).reader = ([.deliver 42] ++ [.deliver 7]) :: [[.deliver 9]] ∧
      ([.deliver 42] : List ReaderMove).all ReaderMove.isDelivery = true ∧
      (inputState [[.deliver 42, .deliver 7], [.deliver 9]]).pc.toNat < 4096 ∧
      opcodeField (inputState [[.deliver 42, .deliver 7], [.deliver 9]]).nextWord = 0x5) ∧
    ((inputState [[], [.deliver 9]]).status = .running ∧ (inputState [[], [.deliver 9]]).reader.head? = some [] ∧
      (inputState [[], [.deliver 9]]).pc.toNat < 4096 ∧ opcodeField (inputState [[], [.deliver 9]]).nextWord = 0x5 ∧
      look (fun t => (t.ac, t.reader)) { inputState [[], [.deliver 9]] with inreg := 5 } = some (5, [[.deliver 9]]) ∧
      look (fun t => (t.ac, t.handoff)) { inputState [[], [.deliver 9]] with handoff := some 6 } = some (6, none)) := by
  decide
theorem witness_ReaderFaultEndsRun : State.status { State.reset with reader := [[.deliver 1, .parseFault, .deliver 2]] } =
      .running ∧
    State.reader { State.reset with reader := [[.deliver 1, .parseFault, .deliver 2]] } =
      ([.deliver 1] ++ .parseFault :: [.deliver 2]) :: [] := by decide
/-- An image that ends at the last word of memory loads; one word more, or a start of 0x1000, does not. -/
theorem witness_loadImage :
    (∃ s, loadImage .haltOnZeroOpcode [[.deliver 1]] 0xFFE [0x6000, 0x7000] = some s) ∧
    loadImage .haltOnZeroWord [] 0xFFF [0x6000, 0x7000] = none ∧ loadImage .haltOnZeroWord [] 0x1000 [] = none ∧
    (∃ s, loadImage .haltOnZeroWord [] 0xFFF [] = some s ∧ s.readerTurn.status = .running) :=
  ⟨⟨_, rfl⟩, by decide, by decide, ⟨_, rfl, by decide⟩⟩
theorem witness_StepKeepsInvariant : (∃ t, step State.reset = .next t) ∧ State.reset.Inv :=
  ⟨⟨_, rfl⟩, by decide, by
    show State.reset.marLatched ∧ State.reset.pcBounded
    exact ⟨by unfold State.marLatched; decide, .inl (by decide)⟩⟩
theorem witness_OutregIsNeverRead : (∃ t, step (at_ 0 7 [(0, 0x6000)]) = .next t ∧ t.status.isFaulted = false) ∧
    opcodeField (at_ 0 7 [(0, 0x6000)]).nextWord = 0x6 ∧
    (∃ t, step State.reset = .next t ∧ t.status.isFaulted = false) ∧ opcodeField State.reset.nextWord ≠ 0x6 :=
  ⟨⟨_, rfl, by decide⟩, by decide, ⟨_, rfl, by decide⟩, by decide⟩
theorem witness_OldIrMarMbrAreNeverRead : (at_ 0xFFF 3 [(0xFFF, 0x3FFF)]).Ready := ⟨rfl, rfl, by decide⟩
theorem witness_ModesDifferOnlyOnJnS : State.reset.nextWord = 0 ∧ (∃ t, step State.reset = .next t) ∧
    opcodeField (at_ 0 0 [(0, 0x1000)]).nextWord ≠ 0 ∧ (∃ t, step (at_ 0 0 [(0, 0x1000)]) = .next t) :=
  ⟨by decide, ⟨_, rfl⟩, by decide, ⟨_, rfl⟩⟩
theorem witness_NextStepRunsStoredWord : (at_ 0xFFE 0x7000 [(0xFFE, 0x2FFF)]).status = .running ∧
    (at_ 0xFFE 0x7000 [(0xFFE, 0x2FFF)]).reader = [] ∧ (0xFFE : Word).toNat < 4096 ∧
    (at_ 0xFFE 0x7000 [(0xFFE, 0x2FFF)]).nextWord = encode (.store 0xFFF) ∧
    (0xFFF : Addr).toNat = (0xFFE : Word).toNat + 1 := by decide
theorem witness_JnSThenJumpIReturns :
    (at_ 0x300 0 [(0x300, 0x0FFE), (0xFFF, 0xCFFE)]).nextWord = encode (.jnS 0xFFE) ∧ (0xFFE : Addr) ≠ 0 ∧
    (0xFFE : Addr).toNat + 1 < 4096 ∧
    (at_ 0x300 0 [(0x300, 0x0FFE), (0xFFF, 0xCFFE)]).mem.get ((0xFFE : Addr).toNat + 1) = encode (.jumpI 0xFFE) ∧
    (at_ 0x300 0 [(0x300, 0x0FFE), (0xFFF, 0xCFFE)]).status = .running ∧
    (at_ 0x300 0 [(0x300, 0x0FFE), (0xFFF, 0xCFFE)]).reader = [] ∧
    (at_ 0x300 0 [(0x300, 0x0FFE), (0xFFF, 0xCFFE)]).opcode0Mode = .haltOnZeroWord ∧
    (at_ 0x300 0 [(0x300, 0x0FFE), (0xFFF, 0xCFFE)]).pc.toNat < 4096 := by decide
theorem witness_JumpToSelfNeverEnds : (at_ 0x050 0 [(0x050, 0x9050)]).pc = zext16 0x050 ∧
    (at_ 0x050 0 [(0x050, 0x9050)]).nextWord = encode (.jump 0x050) ∧
    (at_ 0x050 0 [(0x050, 0x9050)]).status = .running ∧ (at_ 0x050 0 [(0x050, 0x9050)]).reader = [] := by decide
theorem witness_EndOfRunObservation : State.reset.status = .running ∧
    (State.reset.halt).status = .halted ∧ (State.reset.raise .dataAddress (some 0x1000)).status =
      .faulted ⟨.dataAddress, some 0x1000⟩ := by decide
theorem witness_EmittedWordsDecodeBack : mnemonicRow ['L', 'o', 'a', 'd'] = some (0x1, .address) ∧
    emitBody [] ['L', 'o', 'a', 'd'] [['4', '0', '9', '5']] = .ok 0x1FFF := ⟨by decide, rfl⟩
/-- One text and table for each clause on an operand, at the bounds of its range. -/
theorem witness_OperandLiteralBeforeLabel : mnemonicRow ['L', 'o', 'a', 'd'] = some (0x1, .address) ∧
    parseDecimal "4095".toList = some 4095 ∧ parseDecimal "4096".toList = some 4096 ∧
    parseDecimal ['-', 'f'] = none ∧ signedNumeral ['-', 'f'] = false ∧
    lookupSymbol ['-', 'f'] [(['-', 'f'], 0xFFF)] = some 0xFFF ∧
    lookupSymbol ['-', 'f'] [(['-', 'f'], 0x1000)] = some 0x1000 ∧ lookupSymbol ['-', 'f'] [] = none ∧
    signedNumeral ['+', '5'] = true := by decide
/-- A label on END, bound past the last address (log entry 14). -/
theorem witness_OperandLiteralBeforeLabel_end :
    assemble "ORG FFF\nLoad L\nL, END".toList = .error .outOfRange := by rfl
theorem witness_AssembledImagesLoad : assemble "ORG FFF\nHalt\nEND".toList = .ok ⟨0xFFF, [0x7000]⟩ := by rfl

end Sys2Proof.Tests
end

/-!
SUPPORT. What no instruction writes, faulting or not, and the parameter `OPCODE0_MODE`, which no step writes (R9).
-/

namespace Sys2Proof.Machine

/-- No instruction, faulting or not, writes IR, INREG, HANDOFF, the reader's schedule or the mode (R24, R27, R31, R9):
they belong to the fetch, the poll, the reader and the configuration. -/
theorem exec_keeps_inputs {i : Instr} {s t : State} (h : exec i s = .next t) :
    t.ir = s.ir ∧ t.inreg = s.inreg ∧ t.handoff = s.handoff ∧ t.reader = s.reader ∧ t.opcode0Mode = s.opcode0Mode := by
  cases i with
  | addI x | loadI x | storeI x =>
    obtain rfl := Host.Outcome.next.inj h
    rcases le_or_gt Config.memWords (s.decodeOperand x).mbr.toNat with hptr | hptr
    · simp [indirect_of_le _ hptr]
    · simp [indirect_of_lt _ hptr]
  | skipcond c n =>
    obtain rfl := Host.Outcome.next.inj h
    split <;> simp
  | zeroHalt x | jnS x | load x | store x | add x | subt x | input x | output x | halt x | skipcondBad x | jump x
  | clear x | jumpI x | illegalOpcode x =>
    obtain rfl := Host.Outcome.next.inj h
    simp

/-- Settles O36: the reader's turn and a fetch fault keep the mode, and so does the instruction, which starts from the
mode the fetch left. -/
theorem modeIsConstant : Obligations.ModeIsConstant := by
  intro s t h
  obtain ⟨-, ⟨-, rfl⟩ | ⟨-, -, rfl⟩ | ⟨-, -, hexec⟩⟩ := step_cases h
  · exact s.readerTurn_opcode0Mode
  · simp
  · obtain ⟨-, -, -, -, hmode⟩ := exec_keeps_inputs hexec
    exact hmode.trans s.fetched_opcode0Mode

end Sys2Proof.Machine

/-!
SUPPORT. What the instruction a word decodes to says of the word, what an instruction can do to the state decode leaves,
the forms of a step, and the statements on the state that follow: frames, OUT, PC, the invariant, and the registers that
no step reads.
-/

namespace Sys2Proof

/-! ### The instruction a word decodes to -/

theorem opcode_decodeSkipcond (x : Addr) : (decodeSkipcond x).opcode = 0x8 := by
  unfold decodeSkipcond
  split <;> rfl

/-- The condition bits and the ignored bits of a Skipcond word are put together again, whatever the condition (R76). -/
theorem lowBits_decodeSkipcond (x : Addr) : (decodeSkipcond x).lowBits = x := by
  have of_condBits (c : BitVec 2) (h : (condBits x).toNat = c.toNat) : (c ++ skipIgnored x : BitVec 12) = x := by
    rw [← BitVec.eq_of_toNat_eq h, append_skipFields]
  unfold decodeSkipcond
  split
  case h_1 h => exact of_condBits 0 h
  case h_2 h => exact of_condBits 1 h
  case h_3 h => exact of_condBits 2 h
  case h_4 h0 h1 h2 =>
    have hlt := (condBits x).isLt
    have h3 : (condBits x).toNat = 3 := by simp only [imp_false] at h0 h1 h2; omega
    exact of_condBits 3 h3

theorem opcode_decodeOpcode (op : BitVec 4) (x : Addr) : (decodeOpcode op x).opcode = op := by
  apply BitVec.eq_of_toNat_eq
  unfold decodeOpcode
  split
  case h_9 h => rw [opcode_decodeSkipcond, h]; rfl
  case h_16 =>
    have hlt := op.isLt
    simp only [imp_false] at *
    show 15 = op.toNat
    omega
  all_goals exact Eq.symm ‹_›

theorem lowBits_decodeOpcode (op : BitVec 4) (x : Addr) : (decodeOpcode op x).lowBits = x := by
  unfold decodeOpcode
  split
  case h_9 => exact lowBits_decodeSkipcond x
  all_goals rfl

theorem opcodeField_of_zeroHaltWord {m : Opcode0Mode} {w : Word} (h : zeroHaltWord m w = true) :
    opcodeField w = 0x0 := by
  cases m with
  | haltOnZeroWord => exact ((eq_zero_iff_fields w).mp (by simpa [zeroHaltWord] using h)).1
  | haltOnZeroOpcode => simpa [zeroHaltWord] using h

/-- A word's opcode is the opcode of the instruction it stands for (R71, R75). -/
theorem opcode_decodeWord (m : Opcode0Mode) (w : Word) : (decodeWord m w).opcode = opcodeField w := by
  unfold decodeWord
  split
  · exact (opcodeField_of_zeroHaltWord ‹_›).symm
  · exact opcode_decodeOpcode _ _

/-- A word's address field is the low bits of the instruction it stands for (R71 to R74). -/
theorem lowBits_decodeWord (m : Opcode0Mode) (w : Word) : (decodeWord m w).lowBits = addrField w := by
  unfold decodeWord
  split
  · rfl
  · exact lowBits_decodeOpcode _ _

end Sys2Proof

namespace Sys2Proof.Machine

theorem haltsRun_decodeSkipcond (x : Addr) : haltsRun (decodeSkipcond x) = false := by
  unfold decodeSkipcond
  split <;> rfl

/-- Only opcode 0x7 is mapped to an instruction that halts: the other halting words never reach the map (R78). -/
theorem haltsRun_decodeOpcode (op : BitVec 4) (x : Addr) : haltsRun (decodeOpcode op x) = true ↔ op = 0x7 := by
  rw [← BitVec.toNat_inj]
  unfold decodeOpcode
  split
  case h_9 h => simp [haltsRun_decodeSkipcond, h]
  case h_16 => simpa [haltsRun]
  all_goals simp [haltsRun, *]

/-- The words that halt, by their text (R204). -/
theorem haltsRun_decodeWord (m : Opcode0Mode) (w : Word) :
    haltsRun (decodeWord m w) = true ↔ zeroHaltWord m w = true ∨ opcodeField w = 0x7 := by
  unfold decodeWord
  split
  · simp [haltsRun, *]
  · simp [haltsRun_decodeOpcode, *]

/-! ### What an instruction can do -/

/-- `FaultCause i d r`: executing `i` in the state `d` that decode's register writes leave raises the record `r`
(R201). -/
inductive FaultCause : Instr → State → FaultRecord → Prop where
  | illegalOpcode {d : State} (n : Addr) : FaultCause (.illegalOpcode n) d ⟨.illegalOpcode, some d.ir⟩
  | badSkipCondition {d : State} (n : BitVec 10) : FaultCause (.skipcondBad n) d ⟨.badSkipCondition, some d.ir⟩
  | dataAddress {i : Instr} {d : State} (hi : ∃ x, i = .addI x ∨ i = .loadI x ∨ i = .storeI x)
      (hptr : Config.memWords ≤ d.mbr.toNat) : FaultCause i d ⟨.dataAddress, some d.mbr⟩

/-- `Effect i d t`: executing `i` in the state `d` that decode's register writes leave can answer `t`. The cases are the
write columns of R33, and the fault. -/
inductive Effect : Instr → State → State → Prop where
  | writesAc {i : Instr} {d : State} (v : Word) (hi : writesAc i = true) (hpc : writesPc i = false) :
      Effect i d (d.setAc v)
  | halts {i : Instr} {d : State} (hi : haltsRun i = true) : Effect i d d.halt
  | output {d : State} (n : Addr) : Effect (.output n) d (d.output d.ac)
  | store {d : State} (x : Addr) : Effect (.store x) d (d.memWrite d.mar d.ac)
  | storeI {d : State} (x : Addr) (hptr : d.mbr.toNat < Config.memWords) :
      Effect (.storeI x) d (d.memWrite d.mbr d.ac)
  | jnS {d : State} (x : Addr) :
      Effect (.jnS x) d (((d.memWrite d.mar d.pc).setAc (d.mar + 1)).setPc (d.mar + 1))
  | skips {c : SkipCond} {d : State} (n : BitVec 10) (hc : skipTaken c d.ac = true) :
      Effect (.skipcond c n) d (d.setPc (d.pc + 1))
  | skipsNot {c : SkipCond} {d : State} (n : BitVec 10) (hc : skipTaken c d.ac = false) : Effect (.skipcond c n) d d
  | jump {d : State} (x : Addr) : Effect (.jump x) d (d.setPc d.mar)
  | jumpI {d : State} (x : Addr) : Effect (.jumpI x) d (d.setPc d.mbr)
  | faults {i : Instr} {d : State} {r : FaultRecord} (hr : FaultCause i d r) : Effect i d (d.raise r.code r.info)

/-- Everything an instruction that answers a next state can have done, on the state decode leaves (R101, R103). -/
theorem exec_effect {i : Instr} {s t : State} (h : exec i s = .next t) : Effect i (s.decodeOperand i.lowBits) t := by
  cases i <;> obtain rfl := Host.Outcome.next.inj h
  case load | add | subt | input | clear => exact .writesAc _ rfl rfl
  case zeroHalt | halt => exact .halts rfl
  case addI x | loadI x =>
    rcases le_or_gt Config.memWords (s.decodeOperand x).mbr.toNat with hptr | hptr
    · rw [indirect_of_le _ hptr]
      exact .faults (.dataAddress ⟨x, by simp⟩ hptr)
    · rw [indirect_of_lt _ hptr]
      exact .writesAc _ rfl rfl
  case storeI x =>
    rcases le_or_gt Config.memWords (s.decodeOperand x).mbr.toNat with hptr | hptr
    · rw [indirect_of_le _ hptr]
      exact .faults (.dataAddress ⟨x, by simp⟩ hptr)
    · rw [indirect_of_lt _ hptr]
      exact .storeI x hptr
  case skipcond c n =>
    split
    · exact .skips n ‹_›
    · exact .skipsNot n (Bool.eq_false_iff.mpr ‹_›)
  case output n => exact .output n
  case store x => exact .store x
  case jnS x => exact .jnS x
  case jump x => exact .jump x
  case jumpI x => exact .jumpI x
  case skipcondBad n => exact .faults (.badSkipCondition n)
  case illegalOpcode n => exact .faults (.illegalOpcode n)

/-! ### What an instruction leaves unchanged -/

/-- Settles O25: each effect of an instruction writes, besides what decode wrote, its own destination only, and a
faulting one is shut out. -/
theorem execWritesOnlyDestinations : Obligations.ExecWritesOnlyDestinations := by
  intro i s t h hnf
  cases exec_effect h with
  | writesAc v hi hpc => simp [hi]
  | halts hi => simp [hi]
  | output n => simp [isOutput]
  | store x => simp +contextual [storesWord, Instr.lowBits]
  | storeI x hptr => simp +contextual [storesWord, Instr.lowBits]
  | jnS x => simp +contextual [storesWord, writesAc, writesPc, Instr.lowBits]
  | skips n hc => simp [writesPc]
  | skipsNot n hc => simp
  | jump x => simp [writesPc]
  | jumpI x => simp [writesPc]
  | faults hr => simp [Status.isFaulted] at hnf

/-! ### Single fields after an instruction, faulting or not -/

/-- No instruction but Output writes OUT or OUTREG, even where it faults (R28, R32). -/
theorem exec_keeps_output {i : Instr} {s t : State} (h : exec i s = .next t) (hi : isOutput i = false) :
    t.outreg = s.outreg ∧ t.out = s.out := by
  cases exec_effect h with
  | output n => cases hi
  | writesAc | halts | store | storeI | jnS | skips | skipsNot | jump | jumpI | faults => simp

/-- Output copies AC to OUTREG and appends it to OUT (R186). -/
theorem exec_output_appends {i : Instr} {s t : State} (h : exec i s = .next t) (hi : isOutput i = true) :
    t.outreg = s.ac ∧ t.out = s.out ++ [s.ac] := by
  cases i with
  | output n => obtain rfl := Host.Outcome.next.inj h; simp
  | _ => cases hi

/-- No instruction but the four that transfer control writes PC, even where it faults (R23, R33). -/
theorem exec_keeps_pc {i : Instr} {s t : State} (h : exec i s = .next t) (hi : writesPc i = false) : t.pc = s.pc := by
  cases exec_effect h with
  | jnS | skips | jump | jumpI => cases hi
  | writesAc | halts | output | store | storeI | skipsNot | faults => simp

/-- Every write of an instruction goes to an address that exists, so memory stays canonical. -/
theorem exec_keeps_wf {i : Instr} {s t : State} (h : exec i s = .next t) (hwf : s.mem.wf = true) : t.mem.wf = true := by
  cases exec_effect h with
  | store x | jnS x => exact State.memWrite_wf (s := s.decodeOperand x) _ hwf (zext16_lt x)
  | storeI x hptr => exact State.memWrite_wf (s := s.decodeOperand x) _ hwf hptr
  | writesAc | halts | output | skips | skipsNot | jump | jumpI | faults => exact hwf

theorem haltsRun_of_writesAc {i : Instr} (h : writesAc i = true) : haltsRun i = false := by
  cases i <;> cases h <;> rfl

/-- STATUS after an instruction: halted by a word that halts, faulted by a cause of R201, and otherwise as it was. -/
theorem exec_status_cases {i : Instr} {s t : State} (h : exec i s = .next t) :
    (haltsRun i = false ∧ t.status = s.status) ∨ (haltsRun i = true ∧ t.status = .halted) ∨
      ∃ r, FaultCause i (s.decodeOperand i.lowBits) r ∧ t.status = .faulted r := by
  cases exec_effect h with
  | halts hi => exact .inr (.inl ⟨hi, rfl⟩)
  | faults hr => exact .inr (.inr ⟨_, hr, rfl⟩)
  | writesAc v hi => exact .inl ⟨haltsRun_of_writesAc hi, rfl⟩
  | output | store | storeI | jnS | skips | skipsNot | jump | jumpI => exact .inl ⟨rfl, rfl⟩

/-! ### The three forms of a step, forwards -/

/-- The reader's fault is the whole step (R184). -/
theorem step_of_readerFault {s : State} {r : FaultRecord} (hs : s.status = .running)
    (hr : s.readerTurn.status = .faulted r) : step s = .next s.readerTurn := by
  simp [step, runStep, hs, hr]

/-- A fetch with no memory behind PC ends the run (R102). -/
theorem step_of_fetchFault {s : State} (hs : s.status = .running) (hr : s.readerTurn.status = .running)
    (hpc : Config.memWords ≤ s.pc.toNat) :
    step s = .next ({ s.readerTurn.poll with mar := s.pc }.raise .fetchAddress (some s.pc)) := by
  have hfetch := State.fetch_of_le (s := s.readerTurn.poll) (by simpa using hpc)
  simp [step, runStep, cycle, hs, hr, hfetch]

/-- A ready state runs its instruction on what the fetch leaves (R100 to R103). -/
theorem step_of_ready {s : State} (hready : s.Ready) : step s = exec s.instruction s.fetched := by
  obtain ⟨hs, hr, hpc⟩ := hready
  have hfetch := State.fetch_of_lt (s := s.readerTurn.poll) (by simpa using hpc)
  simp [step, runStep, cycle, hs, hr, hfetch, State.instruction, State.fetched]

/-! ### The step of a ready state -/

theorem State.opcodeField_nextWord (s : State) : opcodeField s.nextWord = s.instruction.opcode :=
  (opcode_decodeWord _ _).symm

theorem State.addrField_nextWord (s : State) : addrField s.nextWord = s.instruction.lowBits :=
  (lowBits_decodeWord _ _).symm

theorem isOutput_iff_opcode (i : Instr) : isOutput i = true ↔ i.opcode = 0x6 := by
  cases i <;> simp [isOutput, Instr.opcode]

theorem exec_of_step {s t : State} (hready : s.Ready) (h : step s = .next t) :
    exec s.instruction s.fetched = .next t := (step_of_ready hready).symm.trans h

/-- A step that runs no instruction, but ends on the reader's fault or the fetch's, emits nothing. -/
theorem step_keeps_out_of_not_ready {s t : State} (hready : ¬s.Ready) (h : step s = .next t) : t.out = s.out := by
  obtain ⟨hs, ⟨-, rfl⟩ | ⟨-, -, rfl⟩ | ⟨hr, hlt, -⟩⟩ := step_cases h
  · exact s.readerTurn_out
  · simp
  · exact absurd ⟨hs, hr, hlt⟩ hready

/-- Settles O34: a step of a ready state is its instruction, which appends AC just when it is Output; any other step
runs no instruction. -/
theorem outIsAppendOnly : Obligations.OutIsAppendOnly := by
  intro s t h
  rw [s.opcodeField_nextWord, ← isOutput_iff_opcode]
  by_cases hready : s.Ready
  · have hexec := exec_of_step hready h
    constructor
    · rintro ⟨-, hi⟩
      obtain ⟨-, hout⟩ := exec_output_appends hexec hi
      simpa using hout
    · intro hi
      obtain ⟨-, hout⟩ := exec_keeps_output hexec (by simpa [hready] using hi)
      exact hout.trans s.fetched_out
  · exact ⟨fun ⟨h', _⟩ => absurd h' hready, fun _ => step_keeps_out_of_not_ready hready h⟩

theorem toNat_succ_of_lt {w : Word} {k : Nat} (hw : w.toNat < k) (hk : k ≤ 0xFFFF) : (w + 1).toNat = w.toNat + 1 :=
  BitVec.toNat_add_of_lt (show w.toNat + 1 < 2 ^ 16 by omega)

/-- PC after the fetch of a ready state, as a number: nothing wraps. -/
theorem State.fetched_pc_toNat {s : State} (hpc : s.pc.toNat < Config.memWords) :
    s.fetched.pc.toNat = s.pc.toNat + 1 := by
  rw [s.fetched_pc, toNat_succ_of_lt hpc (by decide)]

theorem zext16_succ_toNat (x : Addr) : (zext16 x + 1).toNat = x.toNat + 1 := by
  rw [toNat_succ_of_lt (zext16_lt x) (by decide), zext16_toNat]

/-- R23's bound: from a fetch below 4096, only JumpI takes PC past 0x1001. -/
theorem exec_pc_le {i : Instr} {s t : State} (h : exec i s = .next t) (hpc : s.pc.toNat ≤ 0x1000)
    (hi : i.opcode ≠ 0xC) : t.pc.toNat ≤ 0x1001 := by
  cases exec_effect h with
  | jumpI x => exact absurd rfl hi
  | jnS x | jump x =>
    have hx := x.isLt
    simp only [State.setPc_pc, State.decodeOperand_mar, Instr.lowBits, zext16_succ_toNat, zext16_toNat]
    omega
  | skips n hc => simp only [State.setPc_pc, State.decodeOperand_pc]; bv_omega
  | skipsNot n hc => simp only [State.decodeOperand_pc]; omega
  | writesAc | halts | output | store | storeI | faults => simp; omega

theorem SkipCond.bits_injective : Function.Injective SkipCond.bits := by
  intro c d h
  cases c <;> cases d <;> simp [SkipCond.bits] at h ⊢

/-- Skipcond leaves PC two words past its own address or one, by its condition on AC (R124). -/
theorem exec_skipcond_pc {c : SkipCond} {n : BitVec 10} {s t : State} (h : exec (.skipcond c n) s = .next t) :
    t.pc = if skipTaken c s.ac then s.pc + 1 else s.pc := by
  obtain rfl := Host.Outcome.next.inj h
  split <;> simp_all

/-- Settles O35: the bound is `exec_pc_le`; for the other clauses, the instruction of the fetched word says which opcode
it has and where it leaves PC. -/
theorem pcAfterStep : Obligations.PcAfterStep := by
  intro s t hready h hnf
  have hexec := exec_of_step hready h
  obtain ⟨hs, hturn, hpc⟩ := hready
  have hpc1 := State.fetched_pc_toNat hpc
  constructor
  · rw [s.opcodeField_nextWord]
    exact exec_pc_le hexec (hpc1.trans_le hpc)
  · rw [State.nextOperand, s.opcodeField_nextWord, s.addrField_nextWord]
    generalize s.instruction = i at hexec
    cases i with
    | jump x | jumpI x =>
      obtain rfl := Host.Outcome.next.inj hexec
      simp [Instr.opcode, Instr.lowBits]
    | jnS x =>
      obtain rfl := Host.Outcome.next.inj hexec
      simp [Instr.opcode, Instr.lowBits, hturn]
    | zeroHalt x =>
      obtain rfl := Host.Outcome.next.inj hexec
      simpa [Instr.opcode] using hpc1
    | skipcond c n =>
      have hskip : t.pc.toNat = if skipTaken c s.ac then s.pc.toNat + 2 else s.pc.toNat + 1 := by
        have hpc2 : s.fetched.pc.toNat < Config.memWords + 1 := by omega
        rw [exec_skipcond_pc hexec, s.fetched_ac, apply_ite BitVec.toNat, toNat_succ_of_lt hpc2 (by decide), hpc1]
      simp [Instr.opcode, Instr.lowBits, SkipCond.bits_injective.eq_iff, hskip]
    | skipcondBad n =>
      obtain rfl := Host.Outcome.next.inj hexec
      simp [Status.isFaulted] at hnf
    | load x | store x | add x | subt x | input x | output x | halt x | clear x | addI x | loadI x | storeI x
    | illegalOpcode x =>
      have hnext : t.pc.toNat = s.pc.toNat + 1 := by rw [exec_keeps_pc hexec rfl, hpc1]
      simp [Instr.opcode, hnext]

/-! ### The invariant -/

/-- A cause of R201 gives a record of R201, where `i` is the instruction of IR. -/
theorem FaultCause.wf {i : Instr} {d : State} {r : FaultRecord} (h : FaultCause i d r)
    (hop : opcodeField d.ir = i.opcode) (hlow : addrField d.ir = i.lowBits) : r.wf = true := by
  cases h with
  | illegalOpcode n => simpa [FaultRecord.wf, Instr.opcode] using hop
  | badSkipCondition n => simp [FaultRecord.wf, hop, hlow, Instr.opcode, Instr.lowBits]
  | dataAddress hi hptr => simpa [FaultRecord.wf] using hptr

theorem State.inv_of_faulted {s : State} {r : FaultRecord} (hwf : s.mem.wf = true) (hs : s.status = .faulted r)
    (hr : r.wf = true) : s.Inv :=
  ⟨hwf, by rw [State.statusOk, hs]; exact hr⟩

/-- The instruction of a ready state with canonical memory leaves a state that meets the invariant: MAR as decode left
it, PC within R23's bound, HALTED and FAULTED by their causes. -/
theorem exec_inv {s t : State} (hwf : s.mem.wf = true) (hrun : s.fetched.status = .running)
    (hpc : s.pc.toNat < Config.memWords) (h : exec s.instruction s.fetched = .next t) : t.Inv := by
  have hmem : t.mem.wf = true := exec_keeps_wf h (by simpa using hwf)
  obtain ⟨hir, -, -, -, hmode⟩ := exec_keeps_inputs h
  rw [State.fetched_ir] at hir
  rw [State.fetched_opcode0Mode] at hmode
  have hlatch (hnf : t.status.isFaulted = false) : t.marLatched ∧ t.pcBounded := by
    obtain ⟨hmar, -⟩ := execWritesOnlyDestinations _ _ _ h hnf
    constructor
    · rw [State.marLatched, hmar, hir, s.addrField_nextWord]
    · rw [State.pcBounded, hir, s.opcodeField_nextWord, or_iff_not_imp_right]
      exact exec_pc_le h ((State.fetched_pc_toNat hpc).trans_le hpc)
  obtain ⟨-, hst⟩ | ⟨hi, hst⟩ | ⟨r, hr, hst⟩ := exec_status_cases h
  · rw [hrun] at hst
    refine ⟨hmem, ?_⟩
    rw [State.statusOk, hst]
    exact hlatch (by rw [hst]; rfl)
  · obtain ⟨hmar, hpc⟩ := hlatch (by rw [hst]; rfl)
    refine ⟨hmem, ?_⟩
    rw [State.statusOk, hst, hmode, hir]
    exact ⟨hmar, hpc, (haltsRun_decodeWord _ _).mp hi⟩
  · refine State.inv_of_faulted hmem hst (hr.wf ?_ ?_)
    · simpa using s.opcodeField_nextWord
    · simpa using s.addrField_nextWord

/-- Settles O45: a step that the reader or the fetch ends leaves memory and a record of R201; any other is its
instruction's, by `exec_inv`. -/
theorem stepKeepsInvariant : Obligations.StepKeepsInvariant := by
  intro s t ⟨hwf, _⟩ h
  obtain ⟨-, ⟨hr, rfl⟩ | ⟨-, hpc, rfl⟩ | ⟨hr, hpc, hexec⟩⟩ := step_cases h
  · exact State.inv_of_faulted (by simpa using hwf) hr rfl
  · exact State.inv_of_faulted (by simpa using hwf) rfl (by simpa [FaultRecord.wf] using hpc)
  · exact exec_inv hwf (by simpa using hr) hpc hexec

/-! ### Registers that no step reads -/

/-- `ReaderBlind g`: the reader's turn neither reads nor writes what `g` changes, so it commutes with `g`. -/
structure ReaderBlind (g : State → State) : Prop where
  status : ∀ s, (g s).status = s.status
  reader : ∀ s, (g s).reader = s.reader
  schedule : ∀ s r, { g s with reader := r } = g { s with reader := r }
  deliver : ∀ s v, (g s).deliver v = g (s.deliver v)
  readerFault : ∀ s, (g s).readerFault = g s.readerFault

theorem ReaderBlind.readerMove {g : State → State} (hg : ReaderBlind g) (s : State) (m : ReaderMove) :
    (g s).readerMove m = g (s.readerMove m) := by
  unfold State.readerMove
  rw [hg.status]
  cases s.status with
  | running =>
    cases m with
    | deliver v => exact hg.deliver s v
    | parseFault => exact hg.readerFault s
  | halted | faulted => rfl

theorem ReaderBlind.readerMoves {g : State → State} (hg : ReaderBlind g) (s : State) (ms : List ReaderMove) :
    (g s).readerMoves ms = g (s.readerMoves ms) := by
  induction ms generalizing s with
  | nil => rfl
  | cons m ms ih => rw [State.readerMoves, hg.readerMove, ih, State.readerMoves]

theorem ReaderBlind.readerTurn {g : State → State} (hg : ReaderBlind g) (s : State) :
    (g s).readerTurn = g s.readerTurn := by
  unfold State.readerTurn
  rw [hg.reader]
  cases s.reader with
  | nil => rfl
  | cons ms rest => exact (congrArg (State.readerMoves · ms) (hg.schedule s rest)).trans (hg.readerMoves _ ms)

theorem ReaderBlind.readerTurn_status {g : State → State} (hg : ReaderBlind g) (s : State) :
    (g s).readerTurn.status = s.readerTurn.status := by
  rw [hg.readerTurn, hg.status]

/-- OUTREG holding `v`. -/
def State.setOutreg (v : Word) (s : State) : State := { s with outreg := v }

/-- IR, MAR and MBR holding other words. -/
def State.setLatches (ir mar mbr : Word) (s : State) : State := { s with ir := ir, mar := mar, mbr := mbr }

theorem readerBlind_setOutreg (v : Word) : ReaderBlind (State.setOutreg v) where
  status _ := rfl
  reader _ := rfl
  schedule _ _ := rfl
  deliver _ _ := rfl
  readerFault _ := rfl

theorem readerBlind_setLatches (ir mar mbr : Word) : ReaderBlind (State.setLatches ir mar mbr) where
  status _ := rfl
  reader _ := rfl
  schedule _ _ := rfl
  deliver _ _ := rfl
  readerFault _ := rfl

/-- Decode writes MBR before the instruction reads it (R103). -/
theorem exec_mbr (i : Instr) (s : State) (mbr : Word) : exec i { s with mbr := mbr } = exec i s := by
  cases i <;> rfl

theorem State.fetched_setLatches (ir mar mbr : Word) (s : State) :
    (s.setLatches ir mar mbr).fetched = { s.fetched with mbr := mbr } := by
  rw [State.fetched, (readerBlind_setLatches ir mar mbr).readerTurn]
  rfl

theorem State.ready_setLatches {s : State} (ir mar mbr : Word) (h : s.Ready) : (s.setLatches ir mar mbr).Ready := by
  rwa [State.Ready, (readerBlind_setLatches ir mar mbr).readerTurn_status]

/-- Settles O47: the fetch overwrites IR and MAR, and decode MBR, before the instruction reads them. -/
theorem oldIrMarMbrAreNeverRead : Obligations.OldIrMarMbrAreNeverRead := by
  intro s ir mar mbr hready
  calc step (s.setLatches ir mar mbr)
      = exec s.instruction (s.setLatches ir mar mbr).fetched := step_of_ready (State.ready_setLatches ir mar mbr hready)
    _ = exec s.instruction s.fetched := by rw [s.fetched_setLatches, exec_mbr]
    _ = step s := (step_of_ready hready).symm

/-- Output overwrites OUTREG, and every other instruction carries it along unread (R28). -/
theorem exec_setOutreg {i : Instr} {s t : State} (v : Word) (h : exec i s = .next t) :
    exec i (s.setOutreg v) = .next (t.setOutreg (if isOutput i then s.ac else v)) := by
  cases i with
  | addI x | loadI x | storeI x =>
    obtain rfl := Host.Outcome.next.inj h
    refine congrArg Host.Outcome.next ?_
    rcases le_or_gt Config.memWords (s.decodeOperand x).mbr.toNat with hptr | hptr
    · rw [indirect_of_le _ hptr]
      exact indirect_of_le (s := (s.setOutreg v).decodeOperand x) _ hptr
    · rw [indirect_of_lt _ hptr]
      exact indirect_of_lt (s := (s.setOutreg v).decodeOperand x) _ hptr
  | skipcond c n =>
    obtain rfl := Host.Outcome.next.inj h
    refine congrArg Host.Outcome.next ?_
    by_cases hc : skipTaken c (s.decodeOperand (c.bits ++ n)).ac = true
    · rw [if_pos hc]
      exact if_pos hc
    · rw [if_neg hc]
      exact if_neg hc
  | zeroHalt x | jnS x | load x | store x | add x | subt x | input x | output x | halt x | skipcondBad x | jump x
  | clear x | jumpI x | illegalOpcode x =>
    obtain rfl := Host.Outcome.next.inj h
    rfl

theorem State.fetched_setOutreg (v : Word) (s : State) : (s.setOutreg v).fetched = s.fetched.setOutreg v := by
  rw [State.fetched, (readerBlind_setOutreg v).readerTurn]
  rfl

/-- Two states that differ in OUTREG alone step to states that differ there at most; unless the step faults, OUTREG is
then what Output wrote or what it was. -/
theorem step_setOutreg {s t : State} (v : Word) (h : step s = .next t) :
    ∃ v', step (s.setOutreg v) = .next (t.setOutreg v') ∧
      (t.status.isFaulted = false → v' = if isOutput s.instruction then s.ac else v) := by
  have hturn := (readerBlind_setOutreg v).readerTurn s
  have hstatus := (readerBlind_setOutreg v).readerTurn_status s
  obtain ⟨hs, ⟨hr, rfl⟩ | ⟨hr, hpc, rfl⟩ | ⟨hr, hpc, hexec⟩⟩ := step_cases h
  · refine ⟨v, ?_, fun hnf => ?_⟩
    · rw [step_of_readerFault (s := s.setOutreg v) hs (hstatus.trans hr), hturn]
    · rw [hr] at hnf; cases hnf
  · refine ⟨v, ?_, fun hnf => by cases hnf⟩
    rw [step_of_fetchFault (s := s.setOutreg v) hs (hstatus.trans hr) hpc, hturn]
    rfl
  · refine ⟨_, ?_, fun _ => rfl⟩
    rw [step_of_ready (s := s.setOutreg v) ⟨hs, hstatus.trans hr, hpc⟩, s.fetched_setOutreg,
      ← s.fetched_ac]
    exact exec_setOutreg v hexec

/-- Settles O46, by `step_setOutreg`. -/
theorem outregIsNeverRead : Obligations.OutregIsNeverRead := by
  intro s t v h
  simp only [s.opcodeField_nextWord, ne_eq, ← isOutput_iff_opcode]
  obtain ⟨v', hstep, hv'⟩ := step_setOutreg v h
  refine ⟨_, hstep, rfl, fun hnf hi => ?_, fun hnf hi => ?_⟩
  · exact (hv' hnf).trans (if_pos hi)
  · exact (hv' hnf).trans (if_neg hi)

end Sys2Proof.Machine

/-!
SUPPORT. Memory over a step (R52, R63): which instruction can change a word, where and to what, and the step after a
Store to the next address.
-/

namespace Sys2Proof

/-! ### Words that decode to JnS, and words the halt check passes -/

/-- The words that stand for JnS: opcode-0 words other than 0x0000, under the default mode alone (R78). -/
theorem mode_and_word_of_decodeWord_jnS {m : Opcode0Mode} {w : Word} {x : Addr} (h : decodeWord m w = .jnS x) :
    m = .haltOnZeroWord ∧ w ≠ 0 := by
  have hop : opcodeField w = 0x0 := by rw [← opcode_decodeWord m w, h]; rfl
  have hz : ¬zeroHaltWord m w = true := fun hz => by simp [decodeWord, hz] at h
  cases m with
  | haltOnZeroWord => exact ⟨rfl, by simpa [zeroHaltWord] using hz⟩
  | haltOnZeroOpcode => exact absurd (by simpa [zeroHaltWord] using hop) hz

/-- The halt check passes every word whose opcode is not 0, so its opcode says what it is (R78). -/
theorem decodeWord_mkWord {op : BitVec 4} (m : Opcode0Mode) (x : Addr) (hop : op ≠ 0x0) :
    decodeWord m (mkWord op x) = decodeOpcode op x := by
  have hz : ¬zeroHaltWord m (mkWord op x) = true := fun hz =>
    hop (by simpa using opcodeField_of_zeroHaltWord hz)
  rw [decodeWord, if_neg hz, opcodeField_mkWord, addrField_mkWord]

end Sys2Proof

namespace Sys2Proof.Machine

/-! ### Where a step stores -/

theorem Memory.eq_of_get_set_ne {m : Memory} {a b : Nat} {v : Word} (h : (m.set a v).get b ≠ m.get b) :
    b = a ∧ (m.set a v).get b = v := by
  by_cases hb : b = a
  · exact ⟨hb, by simp [hb]⟩
  · simp [hb] at h

/-- A word that an instruction changes is the one that JnS, Store or StoreI stores, at X, X or M[X]; a faulting
instruction changes none (R52, R33). -/
theorem exec_stores {i : Instr} {s t : State} {a : Nat} (h : exec i s = .next t) (ha : t.mem.get a ≠ s.mem.get a) :
    (∃ x, i = .jnS x ∧ a = x.toNat ∧ t.mem.get a = s.pc) ∨
      (∃ x, i = .store x ∧ a = x.toNat ∧ t.mem.get a = s.ac) ∨
      (∃ x, i = .storeI x ∧ a = (s.mem.get x.toNat).toNat ∧ t.mem.get a = s.ac) := by
  cases exec_effect h with
  | jnS x =>
    obtain ⟨haddr, hword⟩ := Memory.eq_of_get_set_ne ha
    exact .inl ⟨x, rfl, haddr.trans (zext16_toNat x), hword⟩
  | store x =>
    obtain ⟨haddr, hword⟩ := Memory.eq_of_get_set_ne ha
    exact .inr (.inl ⟨x, rfl, haddr.trans (zext16_toNat x), hword⟩)
  | storeI x hptr =>
    obtain ⟨haddr, hword⟩ := Memory.eq_of_get_set_ne ha
    exact .inr (.inr ⟨x, rfl, by simpa [Instr.lowBits] using haddr, hword⟩)
  | writesAc | halts | output | skips | skipsNot | jump | jumpI | faults => exact absurd rfl ha

/-- Settles O26: the reader and a faulting fetch leave memory alone, so the changed word is the one that the instruction
of the fetched word stores. -/
theorem stepStoresOnlyAtItsAddress : Obligations.StepStoresOnlyAtItsAddress := by
  intro s t h _ a ha
  obtain ⟨-, ⟨-, rfl⟩ | ⟨-, -, rfl⟩ | ⟨-, -, hexec⟩⟩ := step_cases h
  · simp at ha
  · simp at ha
  · rw [State.nextOperand, s.opcodeField_nextWord, s.addrField_nextWord]
    rcases exec_stores hexec (by simpa using ha) with
      ⟨x, hi, haddr, hword⟩ | ⟨x, hi, haddr, hword⟩ | ⟨x, hi, haddr, hword⟩
    · obtain ⟨hmode, hne⟩ := mode_and_word_of_decodeWord_jnS hi
      rw [hi]
      exact .inl ⟨rfl, hne, hmode, haddr, hword.trans s.fetched_pc⟩
    · rw [hi]
      exact .inr (.inl ⟨rfl, haddr, hword.trans s.fetched_ac⟩)
    · rw [hi]
      exact .inr (.inr ⟨rfl, by simpa [Instr.lowBits] using haddr, hword.trans s.fetched_ac⟩)

/-! ### A silent reader -/

theorem State.readerTurn_of_nil {s : State} (h : s.reader = []) : s.readerTurn = s := by
  rw [State.readerTurn, h]

theorem State.ready_of_silent {s : State} (hs : s.status = .running) (hr : s.reader = [])
    (hpc : s.pc.toNat < Config.memWords) : s.Ready :=
  ⟨hs, by rw [State.readerTurn_of_nil hr, hs], hpc⟩

/-! ### The step after a Store to the next address -/

/-- The state that a Store at PC to the address `x` leaves. -/
def State.afterStore (s : State) (x : Addr) : State := (s.fetched.decodeOperand x).memWrite (zext16 x) s.fetched.ac

theorem step_of_nextWord_store {s : State} {x : Addr} (hready : s.Ready) (hw : s.nextWord = encode (.store x)) :
    step s = .next (s.afterStore x) := by
  have hi : s.instruction = .store x :=
    (congrArg (decodeWord s.opcode0Mode) hw).trans (decodeWord_mkWord (op := 0x2) _ x (by decide))
  rw [step_of_ready hready, hi]
  rfl

/-- Store reads back what AC held where PC is the address stored to. -/
theorem State.afterStore_nextWord {s : State} {x : Addr} (hpc : (s.afterStore x).pc.toNat = x.toNat) :
    (s.afterStore x).nextWord = s.ac := by
  rw [State.nextWord, hpc]
  simp [State.afterStore, State.memWrite]

/-- Settles O49: Store leaves a ready state whose PC is the address it stored to, so the next fetch reads what AC
held. -/
theorem nextStepRunsStoredWord : Obligations.NextStepRunsStoredWord := by
  intro s x hs hr hpc hw hx
  have hturn := State.readerTurn_of_nil hr
  have hpc' : (s.afterStore x).pc.toNat = x.toNat := (State.fetched_pc_toNat hpc).trans hx.symm
  have hnext := State.afterStore_nextWord hpc'
  have hready : (s.afterStore x).Ready :=
    State.ready_of_silent (by simp [State.afterStore, hturn, hs]) (by simp [State.afterStore, hturn, hr])
      (hpc'.trans_lt x.isLt)
  have hmode : (s.afterStore x).opcode0Mode = s.opcode0Mode := s.fetched_opcode0Mode
  refine ⟨s.afterStore x, step_of_nextWord_store (State.ready_of_silent hs hr hpc) hw, hnext, ?_⟩
  rw [step_of_ready hready, ← hmode, ← hnext]
  rfl

end Sys2Proof.Machine

/-!
SUPPORT. The encoding (R70 to R79) and the toolchain (R80 to R92): decode and encode are inverse, which words depend on
`OPCODE0_MODE` and what a step does of it, the Skipcond conditions, and what the assembler emits and loads.
-/

namespace Sys2Proof

/-! ### Decode and encode -/

/-- Only the instructions of opcode 0 share their words, and so can be ill-formed (R78). -/
theorem Instr.wellFormed_of_opcode_ne_zero {i : Instr} (m : Opcode0Mode) (h : i.opcode ≠ 0x0) :
    i.wellFormed m = true := by
  cases i with
  | zeroHalt x | jnS x => exact absurd rfl h
  | _ => rfl

/-- Under each mode an opcode-0 word is either the halt check's or JnS's (R78). -/
theorem Instr.wellFormed_jnS (m : Opcode0Mode) (x : Addr) :
    (Instr.jnS x).wellFormed m = !(Instr.zeroHalt x).wellFormed m := by
  cases m <;> simp [Instr.wellFormed, bne]

/-- The halt check stops on just the opcode-0 words whose halting instruction is well-formed (R78, R105). -/
theorem zeroHaltWord_mkWord_zero (m : Opcode0Mode) (x : Addr) :
    zeroHaltWord m (mkWord 0x0 x) = (Instr.zeroHalt x).wellFormed m := by
  rw [Bool.eq_iff_iff]
  cases m with
  | haltOnZeroWord => simp only [zeroHaltWord, beq_iff_eq, eq_zero_iff_fields]; simp [Instr.wellFormed]
  | haltOnZeroOpcode => simp [zeroHaltWord, Instr.wellFormed]

/-- What an opcode-0 word stands for (R78). -/
theorem decodeWord_mkWord_zero (m : Opcode0Mode) (x : Addr) :
    decodeWord m (mkWord 0x0 x) = if (Instr.zeroHalt x).wellFormed m then .zeroHalt x else .jnS x := by
  rw [decodeWord, zeroHaltWord_mkWord_zero, addrField_mkWord, opcodeField_mkWord]
  rfl

theorem decodeSkipcond_bits (c : SkipCond) (n : BitVec 10) : decodeSkipcond (c.bits ++ n) = .skipcond c n := by
  cases c <;> simp [decodeSkipcond, SkipCond.bits]

theorem decodeSkipcond_three (n : BitVec 10) : decodeSkipcond ((3 : BitVec 2) ++ n) = .skipcondBad n := by
  simp [decodeSkipcond]

/-- Settles O2: an opcode-0 word goes to the instruction its well-formedness names, and any other word goes to its
opcode's arm, where a Skipcond is told by its condition bits. -/
theorem decodeOfEncode : Obligations.DecodeOfEncode := by
  intro m i hi
  cases i with
  | zeroHalt x => exact (decodeWord_mkWord_zero m x).trans (if_pos hi)
  | jnS x =>
    rw [Instr.wellFormed_jnS, Bool.not_eq_true'] at hi
    exact (decodeWord_mkWord_zero m x).trans (if_neg (Bool.eq_false_iff.mp hi))
  | skipcond c n => exact (decodeWord_mkWord (op := 0x8) m _ (by decide)).trans (decodeSkipcond_bits c n)
  | skipcondBad n => exact (decodeWord_mkWord (op := 0x8) m _ (by decide)).trans (decodeSkipcond_three n)
  | load x | store x | add x | subt x | input x | output x | halt x | jump x | clear x | addI x | jumpI x | loadI x
  | storeI x | illegalOpcode x => exact decodeWord_mkWord m x (by simp [Instr.opcode])

/-- A word decodes to the well-formed instruction whose word it is. -/
theorem decodeWord_eq_of_encode_eq {m : Opcode0Mode} {i : Instr} {w : Word} (hi : i.wellFormed m = true)
    (hw : encode i = w) : decodeWord m w = i :=
  hw ▸ decodeOfEncode m i hi

theorem wellFormed_decodeWord (m : Opcode0Mode) (w : Word) : (decodeWord m w).wellFormed m = true := by
  by_cases hop : opcodeField w = 0x0
  · rw [← mkWord_fields w, hop, decodeWord_mkWord_zero]
    split
    · assumption
    · rw [Instr.wellFormed_jnS, Bool.not_eq_true', ← Bool.not_eq_true]
      assumption
  · exact Instr.wellFormed_of_opcode_ne_zero m (by rwa [opcode_decodeWord])

/-- Settles O3: the decoded instruction has the word's opcode and low bits, and these are all of the word. -/
theorem everyWordDecodes : Obligations.EveryWordDecodes := by
  intro m w
  refine ⟨wellFormed_decodeWord m w, ?_⟩
  rw [encode, opcode_decodeWord, lowBits_decodeWord, mkWord_fields]

/-- Settles O1: each instruction is well-formed, and its word is the one written out. -/
theorem specWordsDecode : Obligations.SpecWordsDecode := by
  refine ⟨?_, ?_, ?_, ?_, ?_, ?_, ?_, ?_, ?_, ?_, ?_, ?_, ?_, ?_, ?_, ?_, ?_, ?_, ?_⟩ <;>
    exact decodeWord_eq_of_encode_eq (by decide) (by decide)

/-! ### The mode -/

/-- The mode matters for no word of another opcode than 0, and not for 0x0000 (R78). -/
theorem decodeWord_mode_irrelevant {w : Word} (m n : Opcode0Mode) (hw : w = 0 ∨ opcodeField w ≠ 0x0) :
    decodeWord m w = decodeWord n w := by
  rcases hw with rfl | hop
  · have halts (k : Opcode0Mode) : decodeWord k 0 = .zeroHalt 0 := decodeWord_eq_of_encode_eq rfl (by decide)
    rw [halts, halts]
  · rw [← mkWord_fields w, decodeWord_mkWord m _ hop, decodeWord_mkWord n _ hop]

/-- Settles O4: each halting word, and each JnS word, is that of its well-formed instruction. -/
theorem haltCheckBeforeDispatch : Obligations.HaltCheckBeforeDispatch := by
  refine ⟨fun m => ?_, fun x => ?_, fun x hx => ?_, fun m n w hop => ?_, fun x s => ⟨_, rfl, rfl⟩⟩
  · exact decodeWord_eq_of_encode_eq rfl (by decide)
  · exact decodeOfEncode _ (.zeroHalt x) (by simp [Instr.wellFormed])
  · exact decodeOfEncode _ (.jnS x) (by simpa [Instr.wellFormed] using hx)
  · exact decodeWord_mode_irrelevant m n (.inr hop)

end Sys2Proof

namespace Sys2Proof.Machine

/-- `OPCODE0_MODE` set to `m`. -/
def State.setMode (m : Opcode0Mode) (s : State) : State := { s with opcode0Mode := m }

theorem readerBlind_setMode (m : Opcode0Mode) : ReaderBlind (State.setMode m) where
  status _ := rfl
  reader _ := rfl
  schedule _ _ := rfl
  deliver _ _ := rfl
  readerFault _ := rfl

theorem State.fetched_setMode (m : Opcode0Mode) (s : State) : (s.setMode m).fetched = s.fetched.setMode m := by
  rw [State.fetched, (readerBlind_setMode m).readerTurn]
  rfl

/-- The indirect form reads no mode, so it carries along a mode that its continuation carries along. -/
theorem indirect_setMode {s : State} {act : State → Word → State} (m : Opcode0Mode)
    (hact : ∀ w, act (s.setMode m) w = (act s w).setMode m) :
    indirect (s.setMode m) act = (indirect s act).setMode m := by
  rcases le_or_gt Config.memWords s.mbr.toNat with hptr | hptr
  · rw [indirect_of_le _ hptr]
    exact indirect_of_le (s := s.setMode m) act hptr
  · rw [indirect_of_lt _ hptr, ← hact]
    exact indirect_of_lt (s := s.setMode m) act hptr

/-- No instruction reads the mode: decode has chosen it already (R78). -/
theorem exec_setMode {i : Instr} {s t : State} (m : Opcode0Mode) (h : exec i s = .next t) :
    exec i (s.setMode m) = .next (t.setMode m) := by
  cases i with
  | addI x | loadI x | storeI x =>
    obtain rfl := Host.Outcome.next.inj h
    exact congrArg Host.Outcome.next (indirect_setMode (s := s.decodeOperand x) m fun _ => rfl)
  | skipcond c n =>
    obtain rfl := Host.Outcome.next.inj h
    refine congrArg Host.Outcome.next ?_
    rw [apply_ite (State.setMode m)]
    rfl
  | zeroHalt x | jnS x | load x | store x | add x | subt x | input x | output x | halt x | skipcondBad x | jump x
  | clear x | jumpI x | illegalOpcode x =>
    obtain rfl := Host.Outcome.next.inj h
    rfl

/-- A step whose instruction is the same under the mode `m` is the same step but for the mode. -/
theorem step_setMode {s t : State} {m : Opcode0Mode} (hi : (s.setMode m).instruction = s.instruction)
    (h : step s = .next t) : step (s.setMode m) = .next (t.setMode m) := by
  have hturn := (readerBlind_setMode m).readerTurn s
  have hstatus := (readerBlind_setMode m).readerTurn_status s
  obtain ⟨hs, ⟨hr, rfl⟩ | ⟨hr, hpc, rfl⟩ | ⟨hr, hpc, hexec⟩⟩ := step_cases h
  · rw [step_of_readerFault (s := s.setMode m) hs (hstatus.trans hr), hturn]
  · rw [step_of_fetchFault (s := s.setMode m) hs (hstatus.trans hr) hpc, hturn]
    rfl
  · rw [step_of_ready (s := s.setMode m) ⟨hs, hstatus.trans hr, hpc⟩, hi, s.fetched_setMode]
    exact exec_setMode m hexec

/-- Settles O48: only decode reads the mode, and for these words it makes no difference there. -/
theorem modesDifferOnlyOnJnS : Obligations.ModesDifferOnlyOnJnS := by
  intro s t m hw h
  exact step_setMode (decodeWord_mode_irrelevant m s.opcode0Mode hw) h

/-! ### The Skipcond conditions -/

/-- The sign bit of a word is the sign of its signed reading (R12). -/
theorem s16_neg_iff (v : Word) : s16 v < 0 ↔ v.getLsbD 15 = true := by
  have hv := v.isLt
  unfold s16
  split
  · exact iff_of_true (by omega) ‹_›
  · exact iff_of_false (by omega) ‹_›

theorem s16_pos_iff (v : Word) : 0 < s16 v ↔ v.getLsbD 15 = false ∧ v ≠ 0 := by
  have hv := v.isLt
  unfold s16
  cases v.getLsbD 15 with
  | true => simpa using hv.le
  | false => simp [Nat.pos_iff_ne_zero, BitVec.toNat_eq]

/-- Settles O5: the words are those of the four conditions, decoded and emitted, and the tests are the sign of AC's
signed reading. -/
theorem skipcondConditions : Obligations.SkipcondConditions := by
  refine ⟨fun m => ?_, ⟨rfl, rfl, rfl, rfl⟩, fun ac => ?_, fun n s => ⟨_, rfl, rfl⟩⟩
  · refine ⟨?_, ?_, ?_, ?_⟩ <;> exact decodeWord_eq_of_encode_eq rfl (by decide)
  · simp only [skipTaken, decide_eq_true_eq, s16_neg_iff, s16_pos_iff, and_self]

/-! ### The toolchain -/

/-- Settles O53: pass 2 lays the opcode over an operand of twelve bits, and decode's fields take it apart again. -/
theorem emittedWordsDecodeBack : Obligations.EmittedWordsDecodeBack := by
  intro table m ops op k w hrow hemit
  rw [emitBody_of_mnemonicRow table ops hrow] at hemit
  cases hv : operandValue table k ops with
  | error e => rw [hv] at hemit; cases hemit
  | ok v =>
    rw [hv] at hemit
    obtain rfl : mkWord op (BitVec.ofNat 12 v) = w := Except.ok.inj hemit
    have hle := operandValue_le hv
    rw [opcodeField_mkWord, addrField_mkWord, BitVec.toNat_ofNat, Nat.mod_eq_of_lt (by omega)]
    exact ⟨rfl, rfl⟩

theorem bounded_of_le {max v : Nat} (h : v ≤ max) : bounded max v = .ok v := if_pos h

theorem bounded_of_lt {max v : Nat} (h : max < v) : bounded max v = .error .outOfRange := if_neg (by omega)

section Operand

variable {table : List (List Char × Nat)} {t : List Char}

theorem resolveOperand_literal {v : Nat} (hp : parseDecimal t = some v) : resolveOperand table t = bounded 0xFFF v := by
  rw [resolveOperand, hp]

theorem resolveOperand_label {a : Nat} (hp : parseDecimal t = none) (hs : signedNumeral t = false)
    (hl : lookupSymbol t table = some a) : resolveOperand table t = bounded 0xFFF a := by
  simp [resolveOperand, hp, hs, hl]

theorem resolveOperand_undefined (hp : parseDecimal t = none) (hs : signedNumeral t = false)
    (hl : lookupSymbol t table = none) : resolveOperand table t = .error (.undefinedSymbol t) := by
  simp [resolveOperand, hp, hs, hl]

theorem resolveOperand_signed (hs : signedNumeral t = true) : resolveOperand table t = .error .unspecified := by
  simp [resolveOperand, parseDecimal_of_signedNumeral hs, hs]

end Operand

/-- Settles O55: the word is the opcode over the resolved operand, and each clause is one way to resolve it. -/
theorem operandLiteralBeforeLabel : Obligations.OperandLiteralBeforeLabel := by
  intro table m t op hrow
  have hemit : emitBody table m [t] = (resolveOperand table t).map fun v => mkWord op (BitVec.ofNat 12 v) :=
    emitBody_of_mnemonicRow table [t] hrow
  rw [hemit]
  refine ⟨fun v hp hv => ?_, fun v hp hv => ?_, fun a hp hs hl ha => ?_, fun a hp hs hl ha => ?_,
    fun hp hs hl => ?_, fun hs => ?_⟩
  · rw [resolveOperand_literal hp, bounded_of_le hv]; rfl
  · rw [resolveOperand_literal hp, bounded_of_lt hv]; rfl
  · rw [resolveOperand_label hp hs hl, bounded_of_le ha]; rfl
  · rw [resolveOperand_label hp hs hl, bounded_of_lt ha]; rfl
  · rw [resolveOperand_undefined hp hs hl]; rfl
  · rw [resolveOperand_signed hs]; rfl

/-- The load address is an address that memory has (R81, R91). -/
theorem parseOrg_lt {l : List Char} {start : Nat} (h : parseOrg l = .ok start) : start < Config.memWords := by
  unfold parseOrg at h
  split at h
  · split at h
    · obtain ⟨rfl, hle⟩ := bounded_eq_ok.mp h
      exact Nat.lt_succ_of_le hle
    · cases h
  · cases h

/-- What both passes answer is an image at the load address that ends inside memory (R88, R91). -/
theorem assembleLines_eq_ok {start : Nat} {lines : List SourceLine} {img : Image}
    (h : assembleLines start lines = .ok img) :
    img.start = start ∧ start + img.words.length ≤ Config.memWords := by
  unfold assembleLines at h
  split at h
  · cases h
  · split at h
    · cases h
    · unfold fitImage at h
      split at h
      · obtain rfl := Except.ok.inj h
        exact ⟨rfl, ‹_›⟩
      · cases h

/-- An assembled image starts and ends inside memory (R91). -/
theorem assemble_fits {source : List Char} {img : Image} (h : assemble source = .ok img) :
    img.start < Config.memWords ∧ img.start + img.words.length ≤ Config.memWords := by
  unfold assemble at h
  split at h
  · cases h
  · split at h
    · cases h
    · cases h
    · obtain ⟨rfl, hend⟩ := assembleLines_eq_ok h
      exact ⟨parseOrg_lt ‹_›, hend⟩

/-- Settles O54: what the assembler makes sure of an image is what `load_image` asks of it. -/
theorem assembledImagesLoad : Obligations.AssembledImagesLoad := by
  intro source img m sched h
  exact ⟨_, if_pos (assemble_fits h)⟩

end Sys2Proof.Machine

/-!
SUPPORT. The cycle (R100 to R110): which words halt and which have no instruction, the step of a ready state, the fetch
past memory, and which states have a step.
-/

namespace Sys2Proof

/-! ### Words of opcode 0 -/

/-- A word that stands for the halting instruction is one that the halt check stops on (R78, R105). -/
theorem zeroHaltWord_of_decodeWord_zeroHalt {m : Opcode0Mode} {w : Word} {x : Addr} (h : decodeWord m w = .zeroHalt x) :
    zeroHaltWord m w = true := by
  obtain ⟨hwf, hword⟩ := everyWordDecodes m w
  rw [h] at hwf hword
  rw [← hword]
  exact (zeroHaltWord_mkWord_zero m x).trans hwf

theorem decodeWord_of_zeroHaltWord {m : Opcode0Mode} {w : Word} (h : zeroHaltWord m w = true) :
    decodeWord m w = .zeroHalt (addrField w) := if_pos h

/-- An opcode-0 word that the halt check passes is JnS (R78). -/
theorem decodeWord_of_not_zeroHaltWord {m : Opcode0Mode} {w : Word} (hop : opcodeField w = 0x0)
    (h : ¬zeroHaltWord m w = true) : decodeWord m w = .jnS (addrField w) := by
  rw [decodeWord, if_neg h, hop]
  rfl

end Sys2Proof

namespace Sys2Proof.Machine

/-- Decode's register writes, with the operand's address as the instruction's own twelve bits (R103). -/
theorem State.decodeOperand_eq (s : State) (x : Addr) :
    s.decodeOperand x = { s with mar := zext16 x, mbr := s.mem.get x.toNat } := by
  rw [State.decodeOperand, zext16_toNat]

/-- Settles O6: each mode's test is an equation, decode makes that test first, and the halt is decode's register writes
and STATUS. -/
theorem haltCheckEndsRun : Obligations.HaltCheckEndsRun := by
  refine ⟨fun w => beq_iff_eq, fun w => beq_iff_eq, fun m w => decodeWord_of_zeroHaltWord,
    fun m w x => zeroHaltWord_of_decodeWord_zeroHalt, fun x s => ?_⟩
  exact congrArg (fun d : State => Host.Outcome.next d.halt) (s.decodeOperand_eq x)

/-- Settles O22: a word's opcode is its instruction's, and an opcode-0 word is JnS just where the halt check passes
it. -/
theorem illegalOpcodeFaults : Obligations.IllegalOpcodeFaults := by
  refine ⟨fun m n => decodeOfEncode m (.illegalOpcode n) rfl, fun m w n h => ?_, fun m w x h => ?_, fun m w hop => ?_,
    fun m w _ => opcode_decodeWord m w, fun n s => ⟨_, rfl, rfl, rfl⟩⟩
  · rw [← opcode_decodeWord m w, h]; rfl
  · obtain ⟨hmode, hne⟩ := mode_and_word_of_decodeWord_jnS h
    exact ⟨hmode, hne, by rw [← opcode_decodeWord m w, h]; rfl⟩
  · by_cases hz : zeroHaltWord m w = true
    · exact .inl (decodeWord_of_zeroHaltWord hz)
    · have hjnS := decodeWord_of_not_zeroHaltWord hop hz
      obtain ⟨hmode, hne⟩ := mode_and_word_of_decodeWord_jnS hjnS
      exact .inr ⟨hmode, hne, hjnS⟩

/-! ### The step -/

/-- Settles O27, by `step_of_ready` and the fields of the fetched state. -/
theorem stepRunsDecodedInstruction : Obligations.StepRunsDecodedInstruction := fun s hready =>
  ⟨step_of_ready hready, s.fetched_ir, s.fetched_pc, s.fetched_mem, s.fetched_ac, s.fetched_inreg, s.fetched_handoff⟩

/-- Settles O28: the word of a well-formed instruction decodes to it. -/
theorem stepRunsEncodedInstruction : Obligations.StepRunsEncodedInstruction := by
  intro s i hready hi hw
  have hinstr : s.instruction = i := decodeWord_eq_of_encode_eq hi hw.symm
  rw [step_of_ready hready, hinstr]

/-- Settles O29: the fetch fault is the whole step, and neither it, the poll nor the reader's turn writes OUT. -/
theorem fetchPastMemoryFaults : Obligations.FetchPastMemoryFaults := fun s hs hr hpc =>
  ⟨_, step_of_fetchFault hs hr hpc, rfl, s.readerTurn_out⟩

/-- Every instruction answers a next state: faults and halts are next states too (R200, R204). -/
theorem exec_answers (i : Instr) (s : State) : ∃ t, exec i s = .next t := by
  cases i <;> exact ⟨_, rfl⟩

/-- A RUNNING state has a step: the reader's fault, the fetch's, or its instruction's (R110). -/
theorem step_answers_of_running {s : State} (hs : s.status = .running) : ∃ t, step s = .next t := by
  rcases s.readerTurn_status with hr | hr
  · rw [hs] at hr
    rcases le_or_gt Config.memWords s.pc.toNat with hpc | hpc
    · exact ⟨_, step_of_fetchFault hs hr hpc⟩
    · rw [step_of_ready ⟨hs, hr, hpc⟩]
      exact exec_answers _ _
  · exact ⟨_, step_of_readerFault hs hr⟩

/-- Settles O30: an ended run has no step, and a RUNNING state has one in each of a step's three forms. -/
theorem onlyRunningStatesStep : Obligations.OnlyRunningStatesStep := by
  intro s
  constructor
  · rintro ⟨t, h⟩
    obtain ⟨hs, -⟩ := step_cases h
    exact hs
  · exact step_answers_of_running

end Sys2Proof.Machine

/-!
SUPPORT. Control transfer (41_control.md): what JnS, Skipcond, Jump and JumpI leave of a state, the Skipcond conditions
as the sign of AC, and the runs of a call with its return (R121) and of a Jump to itself (R126).
-/

namespace Sys2Proof.Machine

/-! ### The next state of each control instruction -/

/-- The state that JnS leaves: the return address at X, and X + 1 in AC and PC (R120). -/
def State.afterJnS (s : State) (x : Addr) : State :=
  { s with mar := zext16 x, mbr := s.mem.get x.toNat, ac := zext16 x + 1, pc := zext16 x + 1
           mem := s.mem.set x.toNat s.pc }

theorem exec_jnS (x : Addr) (s : State) : exec (.jnS x) s = .next (s.afterJnS x) := by
  rw [State.afterJnS, ← zext16_toNat x]
  rfl

/-- JnS changes the word at X alone, to the return address (R120). -/
theorem State.afterJnS_mem_get (s : State) (x : Addr) (a : Nat) :
    (s.afterJnS x).mem.get a = if a = x.toNat then s.pc else s.mem.get a :=
  Memory.get_set ..

theorem exec_jump (x : Addr) (s : State) :
    exec (.jump x) s = .next { s with mar := zext16 x, mbr := s.mem.get x.toNat, pc := zext16 x } :=
  congrArg (fun d : State => Host.Outcome.next (d.setPc d.mar)) (s.decodeOperand_eq x)

theorem exec_jumpI (x : Addr) (s : State) :
    exec (.jumpI x) s = .next { s with mar := zext16 x, mbr := s.mem.get x.toNat, pc := s.mem.get x.toNat } :=
  congrArg (fun d : State => Host.Outcome.next (d.setPc d.mbr)) (s.decodeOperand_eq x)

theorem exec_skipcond (c : SkipCond) (n : BitVec 10) (s : State) :
    exec (.skipcond c n) s = .next { s with
      mar := zext16 (c.bits ++ n)
      mbr := s.mem.get (c.bits ++ n : Addr).toNat
      pc := if skipTaken c s.ac then s.pc + 1 else s.pc } := by
  rw [exec, execSkipcond, State.decodeOperand_eq]
  split <;> rfl

/-! ### Single instructions -/

/-- Settles O7: the words are those of the well-formed JnS, which the other mode has none of. -/
theorem jnSStoresReturnAddress : Obligations.JnSStoresReturnAddress := by
  refine ⟨fun x hx => ?_, fun w x h => ?_, fun x s => ⟨_, exec_jnS x s, rfl, s.afterJnS_mem_get x⟩⟩
  · exact decodeOfEncode _ (.jnS x) (by simpa [Instr.wellFormed] using hx)
  · obtain ⟨hmode, -⟩ := mode_and_word_of_decodeWord_jnS h
    cases hmode

theorem State.dump_isSome_iff (s : State) : s.dump.isSome = true ↔ s.status = .halted := by
  unfold State.dump
  cases s.status <;> simp

/-- Settles O14: the halt is decode's register writes and STATUS, and STATUS decides whether there is a dump. -/
theorem haltEndsRun : Obligations.HaltEndsRun :=
  ⟨fun m n => decodeOfEncode m (.halt n) rfl,
    fun n s => congrArg (fun d : State => Host.Outcome.next d.halt) (s.decodeOperand_eq n),
    State.dump_isSome_iff⟩

/-- Settles O15, by `exec_skipcond` and the test of each condition. -/
theorem skipcondSkips : Obligations.SkipcondSkips := by
  refine ⟨fun m c n => decodeOfEncode m (.skipcond c n) rfl, fun m n => decodeOfEncode m (.skipcondBad n) rfl,
    fun c n s => ?_, fun n s => ⟨_, rfl, rfl, rfl⟩⟩
  rw [exec_skipcond]
  cases c <;> simp only [skipTaken, decide_eq_true_eq]

/-- Settles O16, by `exec_jump`. -/
theorem jumpContinuesAtTarget : Obligations.JumpContinuesAtTarget :=
  ⟨fun m x => decodeOfEncode m (.jump x) rfl, exec_jump⟩

/-- Settles O19, by `exec_jumpI`. -/
theorem jumpIContinuesAtPointer : Obligations.JumpIContinuesAtPointer :=
  ⟨fun m x => decodeOfEncode m (.jumpI x) rfl, exec_jumpI⟩

/-! ### The sign that a Skipcond condition asks for -/

/-- The sign of AC that each condition asks for (R76). -/
def conditionSign : SkipCond → SignType
  | .lessThan => -1
  | .equal => 0
  | .greaterThan => 1

theorem conditionSign_bijective : Function.Bijective conditionSign := by
  constructor
  · intro c d h
    cases c <;> cases d <;> simp [conditionSign] at h ⊢
  · intro σ
    cases σ with
    | neg => exact ⟨.lessThan, rfl⟩
    | zero => exact ⟨.equal, rfl⟩
    | pos => exact ⟨.greaterThan, rfl⟩

theorem s16_eq_zero_iff (v : Word) : s16 v = 0 ↔ v = 0 := by
  have hv := v.isLt
  unfold s16
  split
  next hneg => exact iff_of_false (by omega) fun h => by simp [h] at hneg
  next => simp [BitVec.toNat_eq]

theorem skipTaken_iff_conditionSign (c : SkipCond) (ac : Word) : skipTaken c ac = true ↔ SignType.sign (s16 ac) = conditionSign c := by
  cases c with
  | lessThan => simp [skipTaken, conditionSign, sign_eq_neg_one_iff]
  | equal => simp [skipTaken, conditionSign, s16_eq_zero_iff]
  | greaterThan => simp [skipTaken, conditionSign, sign_eq_one_iff]

/-- Settles O24: AC has one sign, and each sign is asked for by one condition. -/
theorem exactlyOneConditionHolds : Obligations.ExactlyOneConditionHolds := by
  intro ac
  obtain ⟨c, hc⟩ := conditionSign_bijective.surjective (SignType.sign (s16 ac))
  refine ⟨c, (skipTaken_iff_conditionSign c ac).mpr hc.symm, fun d hd => conditionSign_bijective.injective ?_⟩
  rw [hc, (skipTaken_iff_conditionSign d ac).mp hd]

/-! ### Runs under a silent reader -/

/-- A fetch under a silent reader neither ends the run nor changes the schedule. -/
theorem State.fetched_silent {s : State} (hs : s.status = .running) (hr : s.reader = []) :
    s.fetched.status = .running ∧ s.fetched.reader = [] := by
  rw [s.fetched_status, s.fetched_reader, State.readerTurn_of_nil hr]
  exact ⟨hs, hr⟩

theorem step_of_nextWord_jnS {s : State} {x : Addr} (hready : s.Ready) (hm : s.opcode0Mode = .haltOnZeroWord)
    (hx : x ≠ 0) (hw : s.nextWord = encode (.jnS x)) : step s = .next (s.fetched.afterJnS x) := by
  have hwf : (Instr.jnS x).wellFormed s.opcode0Mode = true := by simpa [Instr.wellFormed, hm] using hx
  rw [stepRunsEncodedInstruction s _ hready hwf hw, exec_jnS]

/-- Settles O50: JnS leaves a ready state at X + 1, where the word of JumpI still stands, and JumpI finds in M[X] the
return address that JnS stored. -/
theorem jnSThenJumpIReturns : Obligations.JnSThenJumpIReturns := by
  intro s x hs hr hm hpc hx hw hx1 hbody
  obtain ⟨hs', hr'⟩ := State.fetched_silent hs hr
  let t := s.fetched.afterJnS x
  have htpc : t.pc.toNat = x.toNat + 1 := zext16_succ_toNat x
  have htw : t.nextWord = encode (.jumpI x) := by
    rw [State.nextWord, htpc, State.afterJnS_mem_get, if_neg (by omega), s.fetched_mem, hbody]
  have hret : t.fetched.mem.get x.toNat = s.pc + 1 := by
    rw [t.fetched_mem, State.afterJnS_mem_get, if_pos rfl, s.fetched_pc]
  have hready : t.Ready := State.ready_of_silent hs' hr' (htpc.trans_lt hx1)
  have hjumpI := (stepRunsEncodedInstruction t (.jumpI x) hready rfl htw).trans (exec_jumpI x t.fetched)
  obtain ⟨hus, -⟩ := State.fetched_silent (s := t) hs' hr'
  exact ⟨t, _, step_of_nextWord_jnS (State.ready_of_silent hs hr hpc) hm hx hw, hjumpI, hus, hret, t.fetched_ac, hret⟩

/-- A step that answers a next state is the first step of a longer run. -/
theorem run_succ_of_step {M : Host.Core} {s t : M.State} (h : M.step s = .next t) (k : Nat) :
    M.run (k + 1) s = M.run k t := by
  rw [Host.Core.run, h]

/-- `s` is RUNNING under a silent reader, at a Jump to its own address `x`. -/
structure State.JumpsToSelf (s : State) (x : Addr) : Prop where
  running : s.status = .running
  silent : s.reader = []
  pc_eq : s.pc = zext16 x
  nextWord_eq : s.nextWord = encode (.jump x)

/-- A Jump to itself leaves a state that is at the same Jump, with memory and OUT unchanged (R126). -/
theorem State.JumpsToSelf.step {s : State} {x : Addr} (h : s.JumpsToSelf x) :
    ∃ t, step s = .next t ∧ t.JumpsToSelf x ∧ t.mem = s.mem ∧ t.out = s.out := by
  obtain ⟨hs, hr, hpc, hw⟩ := h
  have hready : s.Ready := State.ready_of_silent hs hr (hpc ▸ zext16_lt x)
  have hjump := (stepRunsEncodedInstruction s (.jump x) hready rfl hw).trans (exec_jump x s.fetched)
  obtain ⟨hs', hr'⟩ := State.fetched_silent hs hr
  refine ⟨_, hjump, ⟨hs', hr', rfl, ?_⟩, s.fetched_mem, s.fetched_out⟩
  rw [State.nextWord, s.fetched_mem, ← hpc]
  exact hw

/-- Any number of steps from a Jump to itself ends at the same Jump, with memory and OUT unchanged (R109). -/
theorem State.JumpsToSelf.run {s : State} {x : Addr} (h : s.JumpsToSelf x) (k : Nat) :
    ∃ t, Host.Core.run core k s = .next t ∧ t.JumpsToSelf x ∧ t.mem = s.mem ∧ t.out = s.out := by
  induction k generalizing s with
  | zero => exact ⟨s, rfl, h, rfl, rfl⟩
  | succ k ih =>
    obtain ⟨t, hstep, ht, htmem, htout⟩ := h.step
    obtain ⟨u, hrun, hu, humem, huout⟩ := ih ht
    exact ⟨u, (run_succ_of_step (M := core) hstep k).trans hrun, hu, humem.trans htmem, huout.trans htout⟩

/-- Settles O51, by `State.JumpsToSelf.run`. -/
theorem jumpToSelfNeverEnds : Obligations.JumpToSelfNeverEnds := by
  intro s x k hs hr hpc hw
  obtain ⟨t, hrun, ht, hmem, hout⟩ := State.JumpsToSelf.run ⟨hs, hr, hpc, hw⟩ k
  exact ⟨t, hrun, ht.running, ht.pc_eq.trans hpc.symm, hmem, hout⟩

end Sys2Proof.Machine

/-!
SUPPORT. Loads and stores (42_transfer.md): the next state of Load, Store, LoadI and StoreI, with the indirect form read
off the state before decode.
-/

namespace Sys2Proof.Machine

/-! ### The indirect form after decode: its pointer is M[X] -/

section
variable {s : State} {x : Addr} (act : State → Word → State)

/-- Where M[X] names a word, the continuation gets decode's register writes and that word (R148). -/
theorem indirect_decodeOperand_of_lt (h : (s.mem.get x.toNat).toNat < Config.memWords) :
    indirect (s.decodeOperand x) act =
      act { s with mar := zext16 x, mbr := s.mem.get x.toNat } (s.mem.get (s.mem.get x.toNat).toNat) := by
  rw [State.decodeOperand_eq]
  exact indirect_of_lt act h

/-- Where M[X] names no word, the run ends FAULTED with M[X] as the info, and nothing is emitted (R148, R202). -/
theorem indirect_decodeOperand_of_le (h : Config.memWords ≤ (s.mem.get x.toNat).toNat) :
    (indirect (s.decodeOperand x) act).status = .faulted ⟨.dataAddress, some (s.mem.get x.toNat)⟩ ∧
      (indirect (s.decodeOperand x) act).out = s.out := by
  have hraise : indirect (s.decodeOperand x) act =
      (s.decodeOperand x).raise .dataAddress (some (s.mem.get x.toNat)) := by
    rw [State.decodeOperand_eq]
    exact indirect_of_le act h
  rw [hraise]
  exact ⟨rfl, rfl⟩

end

/-! ### The next state of each transfer instruction -/

theorem exec_load (x : Addr) (s : State) :
    exec (.load x) s = .next { s with mar := zext16 x, mbr := s.mem.get x.toNat, ac := s.mem.get x.toNat } :=
  congrArg (fun d : State => Host.Outcome.next (d.setAc d.mbr)) (s.decodeOperand_eq x)

theorem exec_store (x : Addr) (s : State) :
    exec (.store x) s =
      .next { s with mar := zext16 x, mbr := s.mem.get x.toNat, mem := s.mem.set x.toNat s.ac } := by
  rw [exec, execStore, State.decodeOperand_eq, State.memWrite, zext16_toNat]

theorem exec_loadI_of_lt {x : Addr} {s : State} (h : (s.mem.get x.toNat).toNat < Config.memWords) :
    exec (.loadI x) s =
      .next { s with mar := zext16 x, mbr := s.mem.get x.toNat, ac := s.mem.get (s.mem.get x.toNat).toNat } :=
  congrArg Host.Outcome.next (indirect_decodeOperand_of_lt _ h)

theorem exec_storeI_of_lt {x : Addr} {s : State} (h : (s.mem.get x.toNat).toNat < Config.memWords) :
    exec (.storeI x) s =
      .next { s with mar := zext16 x, mbr := s.mem.get x.toNat, mem := s.mem.set (s.mem.get x.toNat).toNat s.ac } :=
  congrArg Host.Outcome.next (indirect_decodeOperand_of_lt _ h)

/-! ### Single instructions -/

/-- Settles O8, by `exec_load`. -/
theorem loadCopiesMemoryToAc : Obligations.LoadCopiesMemoryToAc :=
  ⟨fun m x => decodeOfEncode m (.load x) rfl, exec_load⟩

/-- Settles O9, by `exec_store` and the read after a write. -/
theorem storeWritesAcToMemory : Obligations.StoreWritesAcToMemory :=
  ⟨fun m x => decodeOfEncode m (.store x) rfl, fun x s => ⟨_, exec_store x s, rfl, fun _ => Memory.get_set ..⟩⟩

/-- Settles O20: M[X] names a word, or LoadI is the fault of the indirect form. -/
theorem loadILoadsThroughPointer : Obligations.LoadILoadsThroughPointer :=
  ⟨fun m x => decodeOfEncode m (.loadI x) rfl, fun _ _ => exec_loadI_of_lt,
    fun _ _ h => ⟨_, rfl, indirect_decodeOperand_of_le _ h⟩⟩

/-- Settles O21: M[X] names the one word that StoreI writes, or StoreI is the fault of the indirect form. -/
theorem storeIStoresThroughPointer : Obligations.StoreIStoresThroughPointer :=
  ⟨fun m x => decodeOfEncode m (.storeI x) rfl,
    fun _ _ h => ⟨_, exec_storeI_of_lt h, rfl, fun _ => Memory.get_set ..⟩,
    fun _ _ h => ⟨_, rfl, indirect_decodeOperand_of_le _ h⟩⟩

end Sys2Proof.Machine

/-!
SUPPORT. Arithmetic (43_arithmetic.md): the signed reading as the library's `BitVec.toInt`, the two operations modulo
2^16 under both readings, and the next state of Add, Subt, Clear and AddI.
-/

namespace Sys2Proof.Machine

/-! ### The two readings of a word under the two operations -/

/-- The signed reading is the library's two's-complement one (R12). -/
theorem s16_eq_toInt (v : Word) : s16 v = v.toInt := by
  rw [BitVec.toInt_eq_msb_cond, BitVec.msb_eq_getLsbD_last]
  rfl

theorem s16_range (v : Word) : -32768 ≤ s16 v ∧ s16 v < 32768 := by
  rw [s16_eq_toInt]
  exact ⟨v.le_toInt, v.toInt_lt⟩

theorem addWord_toNat (a b : Word) : (addWord a b).toNat = (a.toNat + b.toNat) % 65536 :=
  BitVec.toNat_add a b

theorem subWord_toNat (a b : Word) : ((subWord a b).toNat : Int) = ((a.toNat : Int) - b.toNat + 65536) % 65536 := by
  have hsub : (subWord a b).toNat = (65536 - b.toNat + a.toNat) % 65536 := BitVec.toNat_sub a b
  have hb := b.isLt
  omega

/-- The signed reading of a sum is off the exact sum by a multiple of 2^16 (R168). -/
theorem s16_addWord_emod (a b : Word) : (s16 (addWord a b) - (s16 a + s16 b)) % 65536 = 0 := by
  rw [s16_eq_toInt, s16_eq_toInt, s16_eq_toInt, addWord, BitVec.toInt_add]
  exact Int.emod_eq_zero_of_dvd Int.dvd_bmod_sub_self

/-- The signed reading of a difference is off the exact difference by a multiple of 2^16 (R168). -/
theorem s16_subWord_emod (a b : Word) : (s16 (subWord a b) - (s16 a - s16 b)) % 65536 = 0 := by
  rw [s16_eq_toInt, s16_eq_toInt, s16_eq_toInt, subWord, BitVec.toInt_sub]
  exact Int.emod_eq_zero_of_dvd Int.dvd_bmod_sub_self

/-- Settles O23: the unsigned remainders, the signed results up to a multiple of 2^16, and the signed range. -/
theorem arithmeticIsModular : Obligations.ArithmeticIsModular := by
  intro a b
  obtain ⟨hadd_ge, hadd_lt⟩ := s16_range (addWord a b)
  obtain ⟨hsub_ge, hsub_lt⟩ := s16_range (subWord a b)
  exact ⟨addWord_toNat a b, subWord_toNat a b, s16_addWord_emod a b, s16_subWord_emod a b,
    hadd_ge, hadd_lt, hsub_ge, hsub_lt⟩

/-! ### The next state of each arithmetic instruction -/

theorem exec_add (x : Addr) (s : State) :
    exec (.add x) s =
      .next { s with mar := zext16 x, mbr := s.mem.get x.toNat, ac := addWord s.ac (s.mem.get x.toNat) } :=
  congrArg (fun d : State => Host.Outcome.next (d.setAc (addWord d.ac d.mbr))) (s.decodeOperand_eq x)

theorem exec_subt (x : Addr) (s : State) :
    exec (.subt x) s =
      .next { s with mar := zext16 x, mbr := s.mem.get x.toNat, ac := subWord s.ac (s.mem.get x.toNat) } :=
  congrArg (fun d : State => Host.Outcome.next (d.setAc (subWord d.ac d.mbr))) (s.decodeOperand_eq x)

theorem exec_clear (n : Addr) (s : State) :
    exec (.clear n) s = .next { s with mar := zext16 n, mbr := s.mem.get n.toNat, ac := 0x0000 } :=
  congrArg (fun d : State => Host.Outcome.next (d.setAc 0)) (s.decodeOperand_eq n)

theorem exec_addI_of_lt {x : Addr} {s : State} (h : (s.mem.get x.toNat).toNat < Config.memWords) :
    exec (.addI x) s =
      .next { s with
        mar := zext16 x
        mbr := s.mem.get x.toNat
        ac := addWord s.ac (s.mem.get (s.mem.get x.toNat).toNat) } :=
  congrArg Host.Outcome.next (indirect_decodeOperand_of_lt _ h)

/-! ### Single instructions -/

/-- Settles O10, by `exec_add` and the unsigned reading of a sum. -/
theorem addAddsModulo : Obligations.AddAddsModulo :=
  ⟨fun m x => decodeOfEncode m (.add x) rfl, fun x s => ⟨_, addWord_toNat _ _, exec_add x s⟩⟩

/-- Settles O11, by `exec_subt` and the unsigned reading of a difference. -/
theorem subtSubtractsModulo : Obligations.SubtSubtractsModulo :=
  ⟨fun m x => decodeOfEncode m (.subt x) rfl, fun x s => ⟨_, subWord_toNat _ _, exec_subt x s⟩⟩

/-- Settles O17, by `exec_clear`. -/
theorem clearZeroesAc : Obligations.ClearZeroesAc :=
  ⟨fun m n => decodeOfEncode m (.clear n) rfl, exec_clear⟩

/-- Settles O18: M[X] names the word that is added, or AddI is the fault of the indirect form. -/
theorem addIAddsThroughPointer : Obligations.AddIAddsThroughPointer :=
  ⟨fun m x => decodeOfEncode m (.addI x) rfl, fun _ _ h => ⟨_, addWord_toNat _ _, exec_addI_of_lt h⟩,
    fun _ _ h => ⟨_, rfl, indirect_decodeOperand_of_le _ h⟩⟩

end Sys2Proof.Machine

/-!
SUPPORT. Input, Output and the reader (44_io.md): what the reader's turn does to a running state, the poll, the next
state of Input and Output, and the observation of a run that the reader ended.
-/

namespace Sys2Proof.Machine

/-! ### The reader's turn -/

theorem State.readerTurn_of_cons {s : State} {ms : List ReaderMove} {rest : List (List ReaderMove)}
    (h : s.reader = ms :: rest) : s.readerTurn = { s with reader := rest }.readerMoves ms := by
  rw [State.readerTurn, h]

/-- A turn without moves only uses up the schedule's entry, if it has one. -/
theorem State.readerTurn_of_no_moves {s : State} (h : s.reader = [] ∨ s.reader.head? = some []) :
    s.readerTurn = { s with reader := s.reader.tail } := by
  cases hr : s.reader with
  | nil => rw [State.readerTurn_of_nil hr, List.tail_nil, ← hr]
  | cons ms rest =>
    obtain rfl : ms = [] := by simpa [hr] using h
    exact State.readerTurn_of_cons hr

theorem State.readerMove_deliver {s : State} (v : Word) (hs : s.status = .running) :
    s.readerMove (.deliver v) = s.deliver v := by
  simp [State.readerMove, hs]

/-- Each delivery overwrites the one before it, so only the last is left in HANDOFF (R180). -/
theorem State.readerMoves_deliveries {s : State} {ms : List ReaderMove} (v : Word) (hs : s.status = .running)
    (hms : ms.all ReaderMove.isDelivery = true) : s.readerMoves (ms ++ [.deliver v]) = s.deliver v := by
  induction ms generalizing s with
  | nil => exact s.readerMove_deliver v hs
  | cons m ms ih =>
    rw [List.all_cons, Bool.and_eq_true] at hms
    obtain ⟨hm, hms⟩ := hms
    cases m with
    | parseFault => cases hm
    | deliver w =>
      rw [List.cons_append, State.readerMoves, State.readerMove_deliver w hs]
      exact ih (s := s.deliver w) hs hms

theorem State.readerMoves_append (s : State) (ms ms' : List ReaderMove) :
    s.readerMoves (ms ++ ms') = (s.readerMoves ms).readerMoves ms' := by
  induction ms generalizing s with
  | nil => rfl
  | cons m ms ih => exact ih (s.readerMove m)

/-- No move of the reader undoes its fault. -/
theorem State.readerMoves_status_of_inputParse {s : State} (ms : List ReaderMove)
    (h : s.status = .faulted ⟨.inputParse, none⟩) : (s.readerMoves ms).status = .faulted ⟨.inputParse, none⟩ :=
  (s.readerMoves_status ms).elim (·.trans h) id

/-- A malformed line ends a running state with INPUT_PARSE, whatever moves stand before and after it (R184). -/
theorem State.readerMoves_parseFault {s : State} (ms ms' : List ReaderMove) (hs : s.status = .running) :
    (s.readerMoves (ms ++ .parseFault :: ms')).status = .faulted ⟨.inputParse, none⟩ := by
  rw [State.readerMoves_append, State.readerMoves]
  apply State.readerMoves_status_of_inputParse
  rcases (s.readerMoves ms).readerMove_cases .parseFault with ⟨_, hm, -⟩ | ⟨-, -, hmove⟩ | ⟨hended, hmove⟩
  · cases hm
  · rw [hmove, State.raise_status]
  · rw [hmove]
    exact (s.readerMoves_status ms).resolve_left fun hrun => hended (hrun.trans hs)

/-! ### The poll -/

theorem State.poll_of_some {s : State} {v : Word} (h : s.handoff = some v) :
    s.poll = { s with inreg := v, handoff := none } := by
  rw [State.poll, h]
  rfl

theorem State.poll_of_none {s : State} (h : s.handoff = none) : s.poll = s := by
  rw [State.poll, h, Option.getD_none, ← h]

/-! ### The next state of Input and Output -/

theorem exec_input (n : Addr) (s : State) :
    exec (.input n) s = .next { s with mar := zext16 n, mbr := s.mem.get n.toNat, ac := s.inreg } :=
  congrArg (fun d : State => Host.Outcome.next (d.setAc d.inreg)) (s.decodeOperand_eq n)

theorem exec_output (n : Addr) (s : State) :
    exec (.output n) s =
      .next { s with mar := zext16 n, mbr := s.mem.get n.toNat, outreg := s.ac, out := s.out ++ [s.ac] } :=
  congrArg (fun d : State => Host.Outcome.next (d.output d.ac)) (s.decodeOperand_eq n)

/-- Settles O12, by `exec_input`. -/
theorem inputCopiesInreg : Obligations.InputCopiesInreg :=
  ⟨fun m n => decodeOfEncode m (.input n) rfl, exec_input⟩

/-- Settles O13, by `exec_output`. -/
theorem outputEmitsAc : Obligations.OutputEmitsAc :=
  ⟨fun m n => decodeOfEncode m (.output n) rfl, exec_output⟩

/-! ### Steps and the reader -/

theorem State.fetched_inreg_eq_poll (s : State) : s.fetched.inreg = s.readerTurn.poll.inreg := rfl

/-- Settles O37: a ready state's instruction runs on the polled state, and no instruction writes INREG or HANDOFF. -/
theorem everyStepPollsHandoff : Obligations.EveryStepPollsHandoff := by
  refine ⟨fun s v => State.poll_of_some, fun s => State.poll_of_none, fun s hready => ?_, fun s t hready h _ => ?_⟩
  · exact ⟨step_of_ready hready, s.fetched_inreg_eq_poll, s.fetched_handoff⟩
  · obtain ⟨-, hinreg, hhandoff, -, -⟩ := exec_keeps_inputs (exec_of_step hready h)
    exact ⟨hinreg.trans s.fetched_inreg_eq_poll, hhandoff.trans s.fetched_handoff⟩

/-- The step of Input: AC and INREG become what this step's poll latched, and HANDOFF is empty (R181, R182). -/
theorem step_of_nextWord_input {s : State} (hready : s.Ready) (hop : opcodeField s.nextWord = 0x5) :
    ∃ t, step s = .next t ∧ t.ac = s.readerTurn.handoff.getD s.inreg ∧
      t.inreg = s.readerTurn.handoff.getD s.inreg ∧ t.handoff = none ∧ t.reader = s.readerTurn.reader ∧
      t.status = .running := by
  have hword : encode (.input (addrField s.nextWord)) = s.nextWord :=
    (congrArg (mkWord · _) hop.symm).trans (mkWord_fields _)
  have hstep := (stepRunsEncodedInstruction s _ hready rfl hword.symm).trans (exec_input _ _)
  obtain ⟨-, hrun, -⟩ := hready
  exact ⟨_, hstep, s.fetched_inreg, s.fetched_inreg, s.fetched_handoff, s.fetched_reader, s.fetched_status.trans hrun⟩

/-- Settles O38: the reader's turn leaves its last delivery in HANDOFF, or HANDOFF as it was, and Input reads what the
poll latches from there. -/
theorem inputReadsLastDelivery : Obligations.InputReadsLastDelivery := by
  refine ⟨fun s v ms rest hs hreader hms hpc hop => ?_, fun s hs hreader hpc hop => ?_⟩
  · have hturn : s.readerTurn = { s with reader := rest }.deliver v :=
      (State.readerTurn_of_cons hreader).trans (State.readerMoves_deliveries v hs hms)
    simpa [hturn] using step_of_nextWord_input ⟨hs, by rw [hturn]; exact hs, hpc⟩ hop
  · have hturn := State.readerTurn_of_no_moves hreader
    simpa [hturn] using step_of_nextWord_input ⟨hs, by rw [hturn]; exact hs, hpc⟩ hop

/-! ### The end by a fault -/

theorem State.dump_of_faulted {s : State} {r : FaultRecord} (h : s.status = .faulted r) : s.dump = none := by
  rw [State.dump, h]

theorem State.runEnd_of_faulted {s : State} {r : FaultRecord} (h : s.status = .faulted r) :
    s.runEnd = some (.faulted s.out r.code) := by
  rw [State.runEnd, h]

/-- Settles O39: the malformed line ends the run in the reader's turn, which is then the whole step and emits
nothing. -/
theorem readerFaultEndsRun : Obligations.ReaderFaultEndsRun := by
  intro s ms ms' rest hs hreader
  have hfault : s.readerTurn.status = .faulted ⟨.inputParse, none⟩ := by
    rw [State.readerTurn_of_cons hreader]
    exact State.readerMoves_parseFault ms ms' hs
  refine ⟨s.readerTurn, step_of_readerFault hs hfault, hfault, State.dump_of_faulted hfault, ?_⟩
  rw [State.runEnd_of_faulted hfault, s.readerTurn_out]

end Sys2Proof.Machine

/-!
SUPPORT. Faults, halts and the end of a run (60_exceptions.md): the exact causes of each, first for an instruction and
then for a step, the order of the fetch fault and the halt check (R206), and the observation of an ended run (R212,
R215).
-/

namespace Sys2Proof.Machine

/-! ### When an instruction ends the run -/

/-- The causes of R201 that lie in execute, by the opcode and the twelve low bits of the instruction. -/
theorem faultCause_iff {i : Instr} {d : State} {r : FaultRecord} :
    FaultCause i d r ↔
      (i.opcode = 0xF ∧ r = ⟨.illegalOpcode, some d.ir⟩) ∨
      (i.opcode = 0x8 ∧ condBits i.lowBits = 3 ∧ r = ⟨.badSkipCondition, some d.ir⟩) ∨
      ((i.opcode = 0xB ∨ i.opcode = 0xD ∨ i.opcode = 0xE) ∧ Config.memWords ≤ d.mbr.toNat ∧
        r = ⟨.dataAddress, some d.mbr⟩) := by
  constructor
  · rintro (n | n | ⟨⟨x, rfl | rfl | rfl⟩, hptr⟩)
    · simp [Instr.opcode]
    · simp [Instr.opcode, Instr.lowBits]
    all_goals simp [Instr.opcode, hptr]
  · rintro (⟨hop, rfl⟩ | ⟨hop, hcond, rfl⟩ | ⟨hop, hptr, rfl⟩)
    · cases i with
      | illegalOpcode n => exact .illegalOpcode n
      | _ => cases hop
    · cases i with
      | skipcondBad n => exact .badSkipCondition n
      | skipcond c n => cases c <;> simp [Instr.lowBits, SkipCond.bits] at hcond
      | _ => cases hop
    · cases i with
      | addI x | loadI x | storeI x => exact .dataAddress ⟨x, by simp⟩ hptr
      | _ => simp [Instr.opcode] at hop

/-- An instruction with a cause of R201 raises that cause's record. -/
theorem exec_status_of_faultCause {i : Instr} {s t : State} {r : FaultRecord} (h : exec i s = .next t)
    (hr : FaultCause i (s.decodeOperand i.lowBits) r) : t.status = .faulted r := by
  cases hr with
  | illegalOpcode n | badSkipCondition n => obtain rfl := Host.Outcome.next.inj h; rfl
  | dataAddress hi hptr =>
    obtain ⟨x, rfl | rfl | rfl⟩ := hi
    all_goals
      obtain rfl := Host.Outcome.next.inj h
      exact congrArg State.status (indirect_of_le _ hptr)

/-- No instruction both halts and faults. -/
theorem FaultCause.haltsRun_eq_false {i : Instr} {d : State} {r : FaultRecord} (h : FaultCause i d r) :
    haltsRun i = false := by
  obtain n | n | ⟨⟨x, rfl | rfl | rfl⟩, -⟩ := h <;> rfl

section
variable {i : Instr} {s t : State} (hs : s.status = .running) (h : exec i s = .next t)
include hs h

/-- A running state's instruction faults on the causes of R201 alone. -/
theorem exec_faulted_iff (r : FaultRecord) :
    t.status = .faulted r ↔ FaultCause i (s.decodeOperand i.lowBits) r := by
  refine ⟨fun ht => ?_, exec_status_of_faultCause h⟩
  obtain ⟨-, hst⟩ | ⟨-, hst⟩ | ⟨r', hr', hst⟩ := exec_status_cases h
  · simp [ht, hs] at hst
  · simp [ht] at hst
  · obtain rfl : r = r' := by simpa [ht] using hst
    exact hr'

/-- A running state's instruction halts just when it is one of R204. -/
theorem exec_halted_iff : t.status = .halted ↔ haltsRun i = true := by
  obtain ⟨hi, hst⟩ | ⟨hi, hst⟩ | ⟨r, hr, hst⟩ := exec_status_cases h
  · simp [hi, hst, hs]
  · simp [hi, hst]
  · simp [hr.haltsRun_eq_false, hst]

end

/-! ### When a step ends the run -/

/-- The pointer that the next instruction's decode leaves in MBR (R103). -/
theorem State.fetched_decodeOperand_mbr (s : State) :
    (s.fetched.decodeOperand s.instruction.lowBits).mbr = s.nextOperand := by
  simp [State.nextOperand, s.addrField_nextWord]

/-- Settles O31: the reader's turn and the fetch raise one record each and then run no instruction; a ready state's step
faults as its instruction does. -/
theorem faultCausesExact : Obligations.FaultCausesExact := by
  refine ⟨rfl, rfl, rfl, rfl, rfl, fun s t r h => ?_⟩
  obtain ⟨hs, ⟨hr, rfl⟩ | ⟨hr, hpc, rfl⟩ | ⟨hr, hpc, hexec⟩⟩ := step_cases h
  · simp [State.Ready, hr, eq_comm]
  · have hle : 4096 ≤ s.pc.toNat := hpc
    simp [State.Ready, hr, hpc, hle, eq_comm]
  · have hready : s.Ready := ⟨hs, hr, hpc⟩
    have hlt : ¬4096 ≤ s.pc.toNat := not_le.mpr hpc
    rw [exec_faulted_iff (s.fetched_status.trans hr) hexec, faultCause_iff, s.fetched_decodeOperand_mbr,
      ← s.opcodeField_nextWord, ← s.addrField_nextWord]
    simp [hready, hr, hlt, Config.memWords]

/-- Settles O32: a step that the reader or the fetch ends is FAULTED, and a ready state's step halts as its instruction
does. -/
theorem haltCausesExact : Obligations.HaltCausesExact := by
  intro s t h
  refine ⟨?_, t.dump_isSome_iff⟩
  rw [← haltsRun_decodeWord]
  obtain ⟨hs, ⟨hr, rfl⟩ | ⟨hr, hpc, rfl⟩ | ⟨hr, hpc, hexec⟩⟩ := step_cases h
  · simp [State.Ready, hr]
  · simp [State.Ready, hpc]
  · rw [exec_halted_iff (s.fetched_status.trans hr) hexec]
    exact (and_iff_right ⟨hs, hr, hpc⟩).symm

/-- Settles O33: the fetch fault is the whole step; under HALT_ON_ZERO_OPCODE the halt check tests the opcode, and the
halt writes neither AC nor memory. -/
theorem fetchFaultBeforeHaltCheck : Obligations.FetchFaultBeforeHaltCheck := by
  refine ⟨fun s t hr hpc h => ?_, fun s hready hmode hop => ?_⟩
  · obtain ⟨hs, -⟩ := step_cases h
    obtain rfl := Host.Outcome.next.inj ((step_of_fetchFault hs hr hpc).symm.trans h)
    rfl
  · have hzero : zeroHaltWord s.opcode0Mode s.nextWord = true := by rw [hmode]; exact beq_iff_eq.mpr hop
    have hinstr : s.instruction = .zeroHalt (addrField s.nextWord) := decodeWord_of_zeroHaltWord hzero
    rw [step_of_ready hready, hinstr]
    exact ⟨_, rfl, rfl, s.fetched_ac, s.fetched_mem⟩

/-! ### The observation of an ended run -/

/-- Settles O52: STATUS alone decides what may be observed. -/
theorem endOfRunObservation : Obligations.EndOfRunObservation := by
  refine fun s => ⟨fun hs => ?_, fun hs => ?_, fun r hs => ⟨State.dump_of_faulted hs, State.runEnd_of_faulted hs⟩⟩
  · exact ⟨by rw [State.runEnd, hs], by rw [State.dump, hs]⟩
  · exact ⟨by rw [State.dump, hs], by rw [State.runEnd, hs]⟩

end Sys2Proof.Machine

/-!
SUPPORT. Reset and load (70_reset_and_hazards.md, section 1): the state that a loaded image gives (R230), which images
are refused (R231), and the invariant at the start of a run.
-/

namespace Sys2Proof.Machine

/-! ### The state that an image gives -/

/-- Reset, but for PC, memory and the two parameters of the run (R230). -/
def State.loaded (m : Opcode0Mode) (sched : List (List ReaderMove)) (start : Nat) (words : List Word) : State :=
  { State.reset with
    pc := BitVec.ofNat 16 start
    mem := Memory.loadWords [] start words
    opcode0Mode := m
    reader := sched }

section
variable {m : Opcode0Mode} {sched : List (List ReaderMove)} {start : Nat} {words : List Word}

/-- An image that loads starts and ends inside memory, and gives one state. -/
theorem loadImage_eq_some_iff {s : State} :
    loadImage m sched start words = some s ↔
      (start < Config.memWords ∧ start + words.length ≤ Config.memWords) ∧ State.loaded m sched start words = s :=
  Option.ite_none_right_eq_some.trans (and_congr_right' Option.some_inj)

theorem loadImage_eq_none_iff :
    loadImage m sched start words = none ↔ Config.memWords ≤ start ∨ Config.memWords < start + words.length := by
  simp [loadImage, imp_iff_not_or]

theorem State.loaded_pc_toNat (h : start < Config.memWords) : (State.loaded m sched start words).pc.toNat = start :=
  Nat.mod_eq_of_lt (h.trans (by decide))

theorem State.loaded_mem_get {i : Nat} (h : i < words.length) :
    (State.loaded m sched start words).mem.get (start + i) = words[i] := by
  simp [State.loaded, Memory.get_loadWords, h]

theorem State.loaded_mem_get_outside {a : Nat} (h : a < start ∨ start + words.length ≤ a) :
    (State.loaded m sched start words).mem.get a = 0 :=
  (Memory.get_loadWords [] start a words).trans (dif_neg (by omega))

/-- STATUS is RUNNING, and MAR and IR are both 0. -/
theorem State.loaded_inv (hstart : start < Config.memWords) (hend : start + words.length ≤ Config.memWords) :
    (State.loaded m sched start words).Inv := by
  have hwf : (State.loaded m sched start words).mem.wf = true := Memory.wf_loadWords State.reset_mem_wf hend
  have hmar : (State.loaded m sched start words).marLatched := by
    show (0 : Word) = zext16 (addrField 0)
    decide
  have hpc : (State.loaded m sched start words).pc.toNat ≤ 0x1001 := by
    rw [State.loaded_pc_toNat hstart]
    exact hstart.le.trans (by decide)
  exact ⟨hwf, hmar, .inl hpc⟩

end

/-! ### The zero word -/

/-- Under either mode the halt check stops on the word 0x0000 (R105). -/
theorem zeroHaltWord_zero (m : Opcode0Mode) : zeroHaltWord m 0 = true := by
  cases m <;> decide

/-- A step that fetches the zero word of untouched memory ends the run HALTED (R233). -/
theorem step_halts_of_nextWord_zero {s : State} (hready : s.Ready) (hw : s.nextWord = 0) :
    ∃ t, step s = .next t ∧ t.status = .halted := by
  have ⟨hs, _⟩ := hready
  obtain ⟨t, ht⟩ := step_answers_of_running hs
  obtain ⟨hhalted, -⟩ := haltCausesExact s t ht
  exact ⟨t, ht, hhalted.mpr ⟨hready, .inl (by rw [hw]; exact zeroHaltWord_zero _)⟩⟩

/-! ### Loading an image -/

/-- Settles O41: memory and PC by the laws of the loaded state; every other field is reset's or a parameter of the
run. -/
theorem loadImageSeedsMemory : Obligations.LoadImageSeedsMemory := by
  intro m sched start words s h
  obtain ⟨⟨hstart, -⟩, rfl⟩ := loadImage_eq_some_iff.mp h
  exact ⟨fun i hi => State.loaded_mem_get hi, fun a ha => State.loaded_mem_get_outside ha,
    State.loaded_pc_toNat hstart, rfl, rfl, rfl, rfl, rfl, rfl, rfl, rfl, rfl, rfl, rfl⟩

/-- Settles O42: the bounds are `loadImage_eq_none_iff`; the empty image's first word lies outside it, so it is zero. -/
theorem imageRefusals : Obligations.ImageRefusals := by
  refine ⟨fun m sched start words => loadImage_eq_none_iff, fun m sched start s h hturn => ?_⟩
  obtain ⟨⟨hstart, -⟩, rfl⟩ := loadImage_eq_some_iff.mp h
  have hpc := State.loaded_pc_toNat (m := m) (sched := sched) (words := []) hstart
  exact step_halts_of_nextWord_zero ⟨rfl, hturn, hpc.trans_lt hstart⟩ (State.loaded_mem_get_outside (by simp [hpc]))

/-- Settles O44: a loaded state is RUNNING, with canonical memory and PC inside memory. -/
theorem loadedImageMeetsInvariant : Obligations.LoadedImageMeetsInvariant := by
  intro m sched start words s h
  obtain ⟨⟨hstart, hend⟩, rfl⟩ := loadImage_eq_some_iff.mp h
  exact State.loaded_inv hstart hend

end Sys2Proof.Machine

/-!
SUPPORT. The reset state (70_reset_and_hazards.md, section 1) is the empty image's, loaded at 0x000, so it meets the
invariant as every loaded state does.
-/

namespace Sys2Proof.Machine

/-- R34: reset is the load of the empty image at 0x000. -/
theorem loadImage_empty : loadImage .haltOnZeroWord [] 0 [] = some State.reset :=
  loadImage_eq_some_iff.mpr ⟨⟨by decide, by decide⟩, rfl⟩

/-- Settles O40: every field is read off `State.reset`, whose memory lists no word. -/
theorem resetValues : Obligations.ResetValues :=
  ⟨rfl, rfl, rfl, rfl, rfl, rfl, rfl, Memory.get_nil, rfl, rfl, rfl, rfl, loadImage_empty⟩

/-- Settles O43: O44 at the empty image. -/
theorem resetMeetsInvariant : Obligations.ResetMeetsInvariant :=
  loadedImageMeetsInvariant .haltOnZeroWord [] 0 [] State.reset loadImage_empty

end Sys2Proof.Machine
